-- ==== Sys2Proof/Word.lean ====
section
/-! DEFINITION. The word types of the machine (00_scope.md R6, R8, R9): bytes, 16-bit words, the fields of an
opcode, and register indices. All quantities are unsigned (R8). -/

namespace Sys2Proof

/-- One byte of memory, one V register, one timer (R6: 8 bits). -/
abbrev Byte := BitVec 8

/-- A 16-bit value: an opcode, `PC`, `I`, a return address (R6). -/
abbrev Word := BitVec 16

/-- A 4-bit field of an opcode (R9). -/
abbrev Nibble := BitVec 4

/-- The 12-bit address field `nnn` (R9, R73). -/
abbrev Addr := BitVec 12

/-- A register index, 0 to 15: every value names a register (R21, R73). -/
abbrev Reg := Fin 16

/-- `V[0xF]`, the register that six forms overwrite with a flag (R22). -/
abbrev VF : Reg := 15

end Sys2Proof
end

