-- ==== Sys2Proof/Syntax.lean ====
section
/-! DEFINITION. The instruction set: one constructor per row of spec/opcode_table.json (30_encoding.md R76, 34 forms;
90_conflicts.md C1), carrying the operand fields the table gives the row. -/

namespace Sys2Proof

/-- The 34 instruction forms of R76, in the table's order. `SHR` and `SHL` are decoded as format `XY` and carry the
`y` field the table lists for them, which no meaning reads (R72, R149, R151). -/
inductive Instr where
  /-- `CLS` (R190). -/
  | cls
  /-- `RET` (R121). -/
  | ret
  /-- `JP nnn` (R122). -/
  | jp (nnn : Addr)
  /-- `CALL nnn` (R123). -/
  | call (nnn : Addr)
  /-- `SE Vx,nn` (R124). -/
  | seVxNn (x : Reg) (nn : Byte)
  /-- `SNE Vx,nn` (R125). -/
  | sneVxNn (x : Reg) (nn : Byte)
  /-- `SE Vx,Vy` (R126). -/
  | seVxVy (x y : Reg)
  /-- `LD Vx,nn` (R141). -/
  | ldVxNn (x : Reg) (nn : Byte)
  /-- `ADD Vx,nn` (R142). -/
  | addVxNn (x : Reg) (nn : Byte)
  /-- `LD Vx,Vy` (R143). -/
  | ldVxVy (x y : Reg)
  /-- `OR Vx,Vy` (R144). -/
  | orVxVy (x y : Reg)
  /-- `AND Vx,Vy` (R145). -/
  | andVxVy (x y : Reg)
  /-- `XOR Vx,Vy` (R146). -/
  | xorVxVy (x y : Reg)
  /-- `ADD Vx,Vy` (R147). -/
  | addVxVy (x y : Reg)
  /-- `SUB Vx,Vy` (R148). -/
  | subVxVy (x y : Reg)
  /-- `SHR Vx` (R149); `y` is decoded and unused. -/
  | shrVx (x y : Reg)
  /-- `SUBN Vx,Vy` (R150). -/
  | subnVxVy (x y : Reg)
  /-- `SHL Vx` (R151); `y` is decoded and unused. -/
  | shlVx (x y : Reg)
  /-- `SNE Vx,Vy` (R127). -/
  | sneVxVy (x y : Reg)
  /-- `LD I,nnn` (R170). -/
  | ldINnn (nnn : Addr)
  /-- `JP V0,nnn` (R128). -/
  | jpV0 (nnn : Addr)
  /-- `RND Vx,nn` (R153). -/
  | rnd (x : Reg) (nn : Byte)
  /-- `DRW Vx,Vy,n` (R191). -/
  | drw (x y : Reg) (n : Nibble)
  /-- `SKP Vx` (R210). -/
  | skp (x : Reg)
  /-- `SKNP Vx` (R211). -/
  | sknp (x : Reg)
  /-- `LD Vx,DT` (R213). -/
  | ldVxDT (x : Reg)
  /-- `LD Vx,K` (R212). -/
  | ldVxK (x : Reg)
  /-- `LD DT,Vx` (R214). -/
  | ldDTVx (x : Reg)
  /-- `LD ST,Vx` (R215). -/
  | ldSTVx (x : Reg)
  /-- `ADD I,Vx` (R171). -/
  | addIVx (x : Reg)
  /-- `LD F,Vx` (R172). -/
  | ldFVx (x : Reg)
  /-- `LD B,Vx` (R173). -/
  | ldBVx (x : Reg)
  /-- `LD [I],Vx` (R175). -/
  | ldIVx (x : Reg)
  /-- `LD Vx,[I]` (R176). -/
  | ldVxI (x : Reg)
  deriving DecidableEq, Repr

/-- The mnemonic of a form, as the opcode table spells it. -/
def Instr.mnemonic : Instr → String
  | .cls => "CLS"
  | .ret => "RET"
  | .jp _ => "JP_nnn"
  | .call _ => "CALL_nnn"
  | .seVxNn _ _ => "SE_Vx_nn"
  | .sneVxNn _ _ => "SNE_Vx_nn"
  | .seVxVy _ _ => "SE_Vx_Vy"
  | .ldVxNn _ _ => "LD_Vx_nn"
  | .addVxNn _ _ => "ADD_Vx_nn"
  | .ldVxVy _ _ => "LD_Vx_Vy"
  | .orVxVy _ _ => "OR_Vx_Vy"
  | .andVxVy _ _ => "AND_Vx_Vy"
  | .xorVxVy _ _ => "XOR_Vx_Vy"
  | .addVxVy _ _ => "ADD_Vx_Vy"
  | .subVxVy _ _ => "SUB_Vx_Vy"
  | .shrVx _ _ => "SHR_Vx"
  | .subnVxVy _ _ => "SUBN_Vx_Vy"
  | .shlVx _ _ => "SHL_Vx"
  | .sneVxVy _ _ => "SNE_Vx_Vy"
  | .ldINnn _ => "LD_I_nnn"
  | .jpV0 _ => "JP_V0_nnn"
  | .rnd _ _ => "RND_Vx_nn"
  | .drw _ _ _ => "DRW_Vx_Vy_n"
  | .skp _ => "SKP_Vx"
  | .sknp _ => "SKNP_Vx"
  | .ldVxDT _ => "LD_Vx_DT"
  | .ldVxK _ => "LD_Vx_K"
  | .ldDTVx _ => "LD_DT_Vx"
  | .ldSTVx _ => "LD_ST_Vx"
  | .addIVx _ => "ADD_I_Vx"
  | .ldFVx _ => "LD_F_Vx"
  | .ldBVx _ => "LD_B_Vx"
  | .ldIVx _ => "LD__I__Vx"
  | .ldVxI _ => "LD_Vx__I"

end Sys2Proof
end

