-- ==== Sys2Proof/WellFormed.lean ====
section
/-! DEFINITION. Well-formed instructions. Every field of R73 is legal at every value ("all sixteen values are legal"),
and the types of `Instr` hold exactly those values; what is left to check is that a term is the CANONICAL one, "which an
assembler emits", with every ignored bit 0 (30_encoding.md R74). A term that is not canonical still executes (R149, R151:
the field is ignored), so no meaning asks for this check (log 16). -/

namespace Sys2Proof

/-- The check of `SHR`: its ignored `y` field is 0 (R76 row 16, canonical `8x06`). -/
def shrCanonical (y : Reg) : Bool := y == 0

/-- The check of `SHL`: its ignored `y` field is 0 (R76 row 18, canonical `8x0E`). -/
def shlCanonical (y : Reg) : Bool := y == 0

/-- An instruction as an assembler writes it (R74). -/
def wellFormed : Instr → Bool
  | .shrVx _ y => shrCanonical y
  | .shlVx _ y => shlCanonical y
  | .cls | .ret | .jp _ | .call _ | .seVxNn _ _ | .sneVxNn _ _ | .seVxVy _ _ | .ldVxNn _ _ | .addVxNn _ _
  | .ldVxVy _ _ | .orVxVy _ _ | .andVxVy _ _ | .xorVxVy _ _ | .addVxVy _ _ | .subVxVy _ _ | .subnVxVy _ _
  | .sneVxVy _ _ | .ldINnn _ | .jpV0 _ | .rnd _ _ | .drw _ _ _ | .skp _ | .sknp _ | .ldVxDT _ | .ldVxK _
  | .ldDTVx _ | .ldSTVx _ | .addIVx _ | .ldFVx _ | .ldBVx _ | .ldIVx _ | .ldVxI _ => true

end Sys2Proof
end

