-- ==== Sys2Proof/Decode.lean ====
section
/-! DEFINITION. The decoder and the encoder (30_encoding.md R70 to R82). The decoder is total and stateless (R79): a word
is one of the 34 forms with its operand fields, or no form (`Unknown`, R78). Opcode numbers: D2 (log 7); which field
selects in each group and which bits are ignored: D3 (log 8). -/

namespace Sys2Proof

/-! ### Fields (R9, R71) -/

/-- `top = op[15:12]`. -/
def fieldTop (op : Word) : Nibble := op.extractLsb' 12 4

/-- `x = op[11:8]`. -/
def fieldX (op : Word) : Reg := (op.extractLsb' 8 4).toFin

/-- `y = op[7:4]`. -/
def fieldY (op : Word) : Reg := (op.extractLsb' 4 4).toFin

/-- `n = op[3:0]`. -/
def fieldN (op : Word) : Nibble := op.extractLsb' 0 4

/-- `nn = op[7:0]`. -/
def fieldNn (op : Word) : Byte := op.extractLsb' 0 8

/-- `nnn = op[11:0]`. -/
def fieldNnn (op : Word) : Addr := op.extractLsb' 0 12

/-! ### Decoding (R74, R76, R82) -/

/-- Group 0 by `nn`; bits 11..8 take no part (R74). -/
def decodeGroup0 (op : Word) : Option Instr :=
  match (fieldNn op).toNat with
  | 0xE0 => some .cls
  | 0xEE => some .ret
  | _ => none

/-- Group 8 by `n` (R74). -/
def decodeGroup8 (op : Word) : Option Instr :=
  match (fieldN op).toNat with
  | 0x0 => some (.ldVxVy (fieldX op) (fieldY op))
  | 0x1 => some (.orVxVy (fieldX op) (fieldY op))
  | 0x2 => some (.andVxVy (fieldX op) (fieldY op))
  | 0x3 => some (.xorVxVy (fieldX op) (fieldY op))
  | 0x4 => some (.addVxVy (fieldX op) (fieldY op))
  | 0x5 => some (.subVxVy (fieldX op) (fieldY op))
  | 0x6 => some (.shrVx (fieldX op) (fieldY op))
  | 0x7 => some (.subnVxVy (fieldX op) (fieldY op))
  | 0xE => some (.shlVx (fieldX op) (fieldY op))
  | _ => none

/-- Group E by `nn` (R74). -/
def decodeGroupE (op : Word) : Option Instr :=
  match (fieldNn op).toNat with
  | 0x9E => some (.skp (fieldX op))
  | 0xA1 => some (.sknp (fieldX op))
  | _ => none

/-- Group F by `nn` (R74). -/
def decodeGroupF (op : Word) : Option Instr :=
  match (fieldNn op).toNat with
  | 0x07 => some (.ldVxDT (fieldX op))
  | 0x0A => some (.ldVxK (fieldX op))
  | 0x15 => some (.ldDTVx (fieldX op))
  | 0x18 => some (.ldSTVx (fieldX op))
  | 0x1E => some (.addIVx (fieldX op))
  | 0x29 => some (.ldFVx (fieldX op))
  | 0x33 => some (.ldBVx (fieldX op))
  | 0x55 => some (.ldIVx (fieldX op))
  | 0x65 => some (.ldVxI (fieldX op))
  | _ => none

/-- The decoder: dispatch on the top nibble, then in groups 0, 8, E and F on the second-level selector (R74, R82).
`none` is `Unknown` (R78); the last arm is never reached, since a nibble is below 16. -/
def decode (op : Word) : Option Instr :=
  match (fieldTop op).toNat with
  | 0x0 => decodeGroup0 op
  | 0x1 => some (.jp (fieldNnn op))
  | 0x2 => some (.call (fieldNnn op))
  | 0x3 => some (.seVxNn (fieldX op) (fieldNn op))
  | 0x4 => some (.sneVxNn (fieldX op) (fieldNn op))
  | 0x5 => some (.seVxVy (fieldX op) (fieldY op))
  | 0x6 => some (.ldVxNn (fieldX op) (fieldNn op))
  | 0x7 => some (.addVxNn (fieldX op) (fieldNn op))
  | 0x8 => decodeGroup8 op
  | 0x9 => some (.sneVxVy (fieldX op) (fieldY op))
  | 0xA => some (.ldINnn (fieldNnn op))
  | 0xB => some (.jpV0 (fieldNnn op))
  | 0xC => some (.rnd (fieldX op) (fieldNn op))
  | 0xD => some (.drw (fieldX op) (fieldY op) (fieldN op))
  | 0xE => decodeGroupE op
  | 0xF => decodeGroupF op
  | _ => none

/-- The 16-bit opcode of two bytes, the byte at the lower address the high one (20_memory.md R54). -/
def wordOfBytes (hi lo : Byte) : Word := BitVec.ofNat 16 (hi.toNat * 256 + lo.toNat)

/-- Why a run of bytes is no instruction of the table. -/
inductive Reject where
  /-- The word matches no row of R76 (R78): the step cycle runs it as the no-op of R105. -/
  | unknownOpcode (op : Word)
  /-- Fewer than two bytes are given; every instruction is two bytes (R70). -/
  | truncated
  deriving DecidableEq, Repr

/-- Decoding a run of bytes: the instruction and the bytes after it, or the named rejection. -/
def decodeBytes : List Byte → Except Reject (Instr × List Byte)
  | hi :: lo :: rest =>
    match decode (wordOfBytes hi lo) with
    | some i => .ok (i, rest)
    | none => .error (.unknownOpcode (wordOfBytes hi lo))
  | [_] => .error .truncated
  | [] => .error .truncated

/-! ### Encoding (R71, R72, R76) -/

/-- Format `A`: `t n n n`. -/
def formatA (top : Nibble) (nnn : Addr) : Word := BitVec.ofNat 16 (top.toNat * 0x1000 + nnn.toNat)

/-- Formats `XB` and `X`: `t x n n` (in `X` the byte is the selector), and `Z` with `x = 0`. -/
def formatXB (top : Nibble) (x : Reg) (nn : Byte) : Word :=
  BitVec.ofNat 16 (top.toNat * 0x1000 + x.val * 0x100 + nn.toNat)

/-- Formats `XY` and `XYN`: `t x y n`. -/
def formatXYN (top : Nibble) (x y : Reg) (n : Nibble) : Word :=
  BitVec.ofNat 16 (top.toNat * 0x1000 + x.val * 0x100 + y.val * 0x10 + n.toNat)

/-- The word of an instruction: its row of R76 with the operand fields put in and every ignored bit that is no field
of the row 0 (R74). -/
def encode : Instr → Word
  | .cls => formatXB 0x0 0 0xE0
  | .ret => formatXB 0x0 0 0xEE
  | .jp nnn => formatA 0x1 nnn
  | .call nnn => formatA 0x2 nnn
  | .seVxNn x nn => formatXB 0x3 x nn
  | .sneVxNn x nn => formatXB 0x4 x nn
  | .seVxVy x y => formatXYN 0x5 x y 0x0
  | .ldVxNn x nn => formatXB 0x6 x nn
  | .addVxNn x nn => formatXB 0x7 x nn
  | .ldVxVy x y => formatXYN 0x8 x y 0x0
  | .orVxVy x y => formatXYN 0x8 x y 0x1
  | .andVxVy x y => formatXYN 0x8 x y 0x2
  | .xorVxVy x y => formatXYN 0x8 x y 0x3
  | .addVxVy x y => formatXYN 0x8 x y 0x4
  | .subVxVy x y => formatXYN 0x8 x y 0x5
  | .shrVx x y => formatXYN 0x8 x y 0x6
  | .subnVxVy x y => formatXYN 0x8 x y 0x7
  | .shlVx x y => formatXYN 0x8 x y 0xE
  | .sneVxVy x y => formatXYN 0x9 x y 0x0
  | .ldINnn nnn => formatA 0xA nnn
  | .jpV0 nnn => formatA 0xB nnn
  | .rnd x nn => formatXB 0xC x nn
  | .drw x y n => formatXYN 0xD x y n
  | .skp x => formatXB 0xE x 0x9E
  | .sknp x => formatXB 0xE x 0xA1
  | .ldVxDT x => formatXB 0xF x 0x07
  | .ldVxK x => formatXB 0xF x 0x0A
  | .ldDTVx x => formatXB 0xF x 0x15
  | .ldSTVx x => formatXB 0xF x 0x18
  | .addIVx x => formatXB 0xF x 0x1E
  | .ldFVx x => formatXB 0xF x 0x29
  | .ldBVx x => formatXB 0xF x 0x33
  | .ldIVx x => formatXB 0xF x 0x55
  | .ldVxI x => formatXB 0xF x 0x65

/-- The high byte of a word, stored at the lower address (R54). -/
def highByte (op : Word) : Byte := op.extractLsb' 8 8

/-- The low byte of a word, stored at the higher address (R54). -/
def lowByte (op : Word) : Byte := op.extractLsb' 0 8

/-- The two bytes of an instruction in memory order. -/
def encodeBytes (i : Instr) : List Byte := [highByte (encode i), lowByte (encode i)]

/-! ### The opcode map as a table (R76) -/

/-- One row of R76: a word `op` is the row's form exactly when `op &&& mask = word`. -/
structure OpcodeRow where
  mnemonic : String
  mask : Word
  word : Word
  deriving DecidableEq, Repr

/-- Rows 1 to 9 of R76. -/
def opcodeRowsLow : List OpcodeRow :=
  [⟨"CLS", 0xF0FF, 0x00E0⟩, ⟨"RET", 0xF0FF, 0x00EE⟩, ⟨"JP_nnn", 0xF000, 0x1000⟩, ⟨"CALL_nnn", 0xF000, 0x2000⟩,
   ⟨"SE_Vx_nn", 0xF000, 0x3000⟩, ⟨"SNE_Vx_nn", 0xF000, 0x4000⟩, ⟨"SE_Vx_Vy", 0xF000, 0x5000⟩,
   ⟨"LD_Vx_nn", 0xF000, 0x6000⟩, ⟨"ADD_Vx_nn", 0xF000, 0x7000⟩]

/-- Rows 10 to 18 of R76: group 8. -/
def opcodeRowsGroup8 : List OpcodeRow :=
  [⟨"LD_Vx_Vy", 0xF00F, 0x8000⟩, ⟨"OR_Vx_Vy", 0xF00F, 0x8001⟩, ⟨"AND_Vx_Vy", 0xF00F, 0x8002⟩,
   ⟨"XOR_Vx_Vy", 0xF00F, 0x8003⟩, ⟨"ADD_Vx_Vy", 0xF00F, 0x8004⟩, ⟨"SUB_Vx_Vy", 0xF00F, 0x8005⟩,
   ⟨"SHR_Vx", 0xF00F, 0x8006⟩, ⟨"SUBN_Vx_Vy", 0xF00F, 0x8007⟩, ⟨"SHL_Vx", 0xF00F, 0x800E⟩]

/-- Rows 19 to 25 of R76. -/
def opcodeRowsMiddle : List OpcodeRow :=
  [⟨"SNE_Vx_Vy", 0xF000, 0x9000⟩, ⟨"LD_I_nnn", 0xF000, 0xA000⟩, ⟨"JP_V0_nnn", 0xF000, 0xB000⟩,
   ⟨"RND_Vx_nn", 0xF000, 0xC000⟩, ⟨"DRW_Vx_Vy_n", 0xF000, 0xD000⟩, ⟨"SKP_Vx", 0xF0FF, 0xE09E⟩,
   ⟨"SKNP_Vx", 0xF0FF, 0xE0A1⟩]

/-- Rows 26 to 34 of R76: group F. -/
def opcodeRowsGroupF : List OpcodeRow :=
  [⟨"LD_Vx_DT", 0xF0FF, 0xF007⟩, ⟨"LD_Vx_K", 0xF0FF, 0xF00A⟩, ⟨"LD_DT_Vx", 0xF0FF, 0xF015⟩,
   ⟨"LD_ST_Vx", 0xF0FF, 0xF018⟩, ⟨"ADD_I_Vx", 0xF0FF, 0xF01E⟩, ⟨"LD_F_Vx", 0xF0FF, 0xF029⟩,
   ⟨"LD_B_Vx", 0xF0FF, 0xF033⟩, ⟨"LD__I__Vx", 0xF0FF, 0xF055⟩, ⟨"LD_Vx__I", 0xF0FF, 0xF065⟩]

/-- The 34 rows of R76, in the table's order. -/
def opcodeRows : List OpcodeRow := opcodeRowsLow ++ opcodeRowsGroup8 ++ opcodeRowsMiddle ++ opcodeRowsGroupF

/-- The word matches the row (R76). -/
def OpcodeRow.matches (r : OpcodeRow) (op : Word) : Bool := op &&& r.mask == r.word

/-! ### The host's reading of a table word -/

/-- The bytes, in memory order, of the instruction whose bits are `w` as the opcode table numbers them: bits at or above
`nbits` are 0, and the one word of an instruction is stored high byte first (R54). -/
def tableBytes (nbits w : Nat) : List Byte :=
  [highByte (BitVec.ofNat 16 (w % 2 ^ nbits)), lowByte (BitVec.ofNat 16 (w % 2 ^ nbits))]

/-- What the decoder reads from an instruction whose bits are `w`, numbered as the opcode table numbers them. -/
def decodeTableWord (nbits w : Nat) : Option Instr :=
  match decodeBytes (tableBytes nbits w) with
  | .ok (i, _) => some i
  | .error _ => none

end Sys2Proof
end

