-- ==== Sys2Proof/Config.lean ====
section
/-! DEFINITION. What is fixed for the machine: the sizes of 00_scope.md R6, and the one free value of the spec, the
random byte of `RND` (R7, R153, 92_eei_decisions.md D12). -/

namespace Sys2Proof

/-- `MEM_SIZE`: bytes of memory, addresses 0x000 to 0xFFF (R6). -/
def Config.memSize : Nat := 4096

/-- `PROG_BASE`: load address of the ROM and reset value of `PC` (R6). -/
def Config.progBase : Nat := 0x200

/-- `ROM_MAX`: the largest ROM length that loads (R6). -/
def Config.romMax : Nat := 3584

/-- `STACK_DEPTH`: return-address slots (R6). -/
def Config.stackDepth : Nat := 16

/-- FREE VALUE (log 1). The random byte of the `k`-th draw: the spec puts it under no law (R153, D12), so it has no
body and nothing can be proved of its value. -/
opaque Config.randomByte : Nat → Byte

end Sys2Proof
end

