-- ==== Sys2Proof/Machine/State.lean ====
section
/-! DEFINITION. The state of the engine (10_state.md R20: "the complete state of the engine is the following list and
nothing else"), the reasons a step could stop, and the state after reset (R37). -/

namespace Sys2Proof.Machine

/-- Memory: the listed (address, byte) pairs; an unlisted address reads as after reset (`Memory.unlisted`). -/
abbrev Memory := List Host.Cell

/-- The framebuffer `fb[y][x]`: 32 rows of 64 one-bit pixels, row-major (R29). -/
abbrev Framebuffer := Vector (Vector Bool 64) 32

/-- The cause latched in `FAULT` (R33, 60_exceptions.md R231). `noFault` is code 0: the engine is not halted. -/
inductive Cause where
  /-- Code 0, `None`: the engine is not halted. -/
  | noFault
  /-- Code 1: `CALL` with `SP = 16`. -/
  | stackOverflow
  /-- Code 2: `RET` with `SP = 0`. -/
  | stackUnderflow
  /-- Code 3: a fetch with `PC > 4094`. -/
  | fetchOutOfBounds
  /-- Code 4: a data access reaching above 0xFFF. -/
  | memOutOfBounds
  /-- Code 5: `SKP` or `SKNP` with `V[x] > 15`. -/
  | keyIndexOutOfRange
  /-- Code 6: RESET_LOAD of a ROM longer than 3584 bytes. -/
  | romTooLarge
  deriving DecidableEq, Repr

/-- The engine's state: every item of R20's table, and the model's own counter `draws`. -/
structure State where
  /-- `mem` (R34, R50). -/
  mem : Memory
  /-- `V[0..15]` (R21); `V[15]` is `VF` (R22). -/
  v : Vector Byte 16
  /-- `I` (R23). -/
  i : Word
  /-- `PC` (R24). -/
  pc : Word
  /-- `stack[0..15]` (R26). -/
  stack : Vector Word 16
  /-- `SP`, 0 to 16 (R27: "values 17 to 31 never occur"; log 17). -/
  sp : Fin 17
  /-- `DT` (R28). -/
  dt : Byte
  /-- `ST` (R28). -/
  st : Byte
  /-- `fb` (R29). -/
  fb : Framebuffer
  /-- `DIRTY` (R30). -/
  dirty : Bool
  /-- `key[0..15]`, true when pressed (R31). -/
  key : Vector Bool 16
  /-- `W`, awaiting key (R32). -/
  w : Bool
  /-- `FAULT` (R33). -/
  fault : Cause
  /-- THE MODEL'S OWN (log 2): how many random bytes `RND` has taken; the argument of the free value. -/
  draws : Nat
  deriving DecidableEq, Repr

/-- The interface's stop "fault". The spec gives the engine no such stop: every `MachineFault` is a NEXT state with the
cause latched in `FAULT` (R233; log 3), so there is no reason to name and the type has no constructor. Nobody raises one;
safe. -/
inductive Fault where
  deriving DecidableEq, Repr

/-- Why the model gives an instruction no meaning. -/
inductive Refusal where
  /-- Raised only by an arm of `exec` whose instruction has no meaning yet; no arm raises it now. Safe: the model stops
  where the hardware goes on. -/
  | notModelled (mnemonic : String)
  deriving DecidableEq, Repr

/-- What a step, an instruction or an operation answers. -/
abbrev Result := Host.Outcome State Fault Refusal

/-- The state after RESET_LOAD of an empty ROM (R37, R58: length 0 is valid; log 5): "Clears all state", the font
installed (nothing is listed, and an unlisted address reads as its reset contents), `PC = 0x200`. -/
def State.reset : State where
  mem := []
  v := Vector.replicate 16 0
  i := 0
  pc := 0x200
  stack := Vector.replicate 16 0
  sp := 0
  dt := 0
  st := 0
  fb := Vector.replicate 32 (Vector.replicate 64 false)
  dirty := false
  key := Vector.replicate 16 false
  w := false
  fault := .noFault
  draws := 0

end Sys2Proof.Machine
end

