-- ==== Sys2Proof/Machine/Memory.lean ====
section
/-! DEFINITION. Memory and its named operations (20_memory.md): the font, what an unlisted address reads as, the
canonical form, and byte reads and writes. Byte order of the fetch is `wordOfBytes` (R54); data has none (R55). -/

namespace Sys2Proof.Machine

/-! ### The reset contents (R51, R57) -/

/-- Glyphs 0 to 7 of the fontset (R57; D19, log 6). -/
def fontLow : List Byte :=
  [0xF0, 0x90, 0x90, 0x90, 0xF0] ++ [0x20, 0x60, 0x20, 0x20, 0x70] ++ [0xF0, 0x10, 0xF0, 0x80, 0xF0] ++
  [0xF0, 0x10, 0xF0, 0x10, 0xF0] ++ [0x90, 0x90, 0xF0, 0x10, 0x10] ++ [0xF0, 0x80, 0xF0, 0x10, 0xF0] ++
  [0xF0, 0x80, 0xF0, 0x90, 0xF0] ++ [0xF0, 0x10, 0x20, 0x40, 0x40]

/-- Glyphs 8 to F of the fontset (R57; D19, log 6). -/
def fontHigh : List Byte :=
  [0xF0, 0x90, 0xF0, 0x90, 0xF0] ++ [0xF0, 0x90, 0xF0, 0x10, 0xF0] ++ [0xF0, 0x90, 0xF0, 0x90, 0x90] ++
  [0xE0, 0x90, 0xE0, 0x90, 0xE0] ++ [0xF0, 0x80, 0x80, 0x80, 0xF0] ++ [0xE0, 0x90, 0x90, 0x90, 0xE0] ++
  [0xF0, 0x80, 0xF0, 0x80, 0xF0] ++ [0xF0, 0x80, 0xF0, 0x80, 0x80]

/-- `FONT[0..79]`: sixteen glyphs of five bytes, glyph `d` at address `5 * d` (R57). -/
def font : List Byte := fontLow ++ fontHigh

/-- What an address nobody has written reads as: the contents RESET_LOAD leaves, the font at 0x000..0x04F and 0
elsewhere (R37, R51). -/
def Memory.unlisted (a : Nat) : Byte := font.getD a 0

/-! ### Reads and writes of one byte -/

/-- The byte at an address (R52: `MemRead(addr, 1)`). The callers check the bound; `mem` itself has no hole below
4096 (R50). -/
def Memory.read : Memory → Nat → Byte
  | [], a => Memory.unlisted a
  | (k, b) :: m, a => if k = a then b else Memory.read m a

/-- The memory with no entry for the address. -/
def Memory.erase (m : Memory) (a : Nat) : Memory := m.filter (fun c => c.1 != a)

/-- Put an entry in its place in the order of addresses. -/
def Memory.insert (a : Nat) (b : Byte) : Memory → Memory
  | [] => [(a, b)]
  | (k, c) :: m => if a < k then (a, b) :: (k, c) :: m else (k, c) :: Memory.insert a b m

/-- Store a byte (R52: `MemWrite(addr, 1, v)`; R53: no range is protected). A byte equal to what the unlisted address
reads as takes no entry, so that equal memories are equal data. -/
def Memory.write (m : Memory) (a : Nat) (b : Byte) : Memory :=
  if b = Memory.unlisted a then Memory.erase m a else Memory.insert a b (Memory.erase m a)

/-- Every later entry lies above the address, in strictly rising order. -/
def Memory.rising : Nat → Memory → Bool
  | _, [] => true
  | low, (k, _) :: m => decide (low ≤ k) && Memory.rising (k + 1) m

/-- The canonical form: addresses strictly rising and below 4096 (R50), and no entry equal to what an unlisted address
reads as. -/
def Memory.wf (m : Memory) : Bool :=
  Memory.rising 0 m && m.all (fun c => decide (c.1 < Config.memSize) && c.2 != Memory.unlisted c.1)

/-! ### Runs of bytes -/

/-- Store bytes at consecutive addresses, the first at the lowest (R55). -/
def Memory.writeBytes (m : Memory) (a : Nat) : List Byte → Memory
  | [] => m
  | b :: bs => Memory.writeBytes (Memory.write m a b) (a + 1) bs

/-- Read consecutive bytes, the lowest address first (R55). -/
def Memory.readBytes (m : Memory) (a : Nat) : Nat → List Byte
  | 0 => []
  | n + 1 => Memory.read m a :: Memory.readBytes m (a + 1) n

end Sys2Proof.Machine
end

