-- ==== Sys2Proof/Machine/Ops.lean ====
section
/-! DEFINITION. The named operations over the state: registers, the program counter, the call stack, the pixels and
keys, taking a fault, fetching a word, the no-op of an unknown word. -/

namespace Sys2Proof.Machine

/-! ### Registers, slots, pixels, keys: one home each -/

/-- `V[x]` (R21). -/
def State.reg (s : State) (x : Reg) : Byte := s.v[x]

/-- `V[x] <- b` (R21: no register is hard-wired). -/
def State.setReg (s : State) (x : Reg) (b : Byte) : State := { s with v := s.v.set x b }

/-- `stack[k]` (R26). -/
def State.slot (s : State) (k : Fin 16) : Word := s.stack[k]

/-- `fb[y][x]` (R29). -/
def State.pixel (s : State) (y : Fin 32) (x : Fin 64) : Bool := s.fb[y][x]

/-- `key[k] = 1` (R31). -/
def State.keyDown (s : State) (k : Fin 16) : Bool := s.key[k]

/-- `I <- a` (R23). -/
def State.setI (s : State) (a : Word) : State := { s with i := a }

/-- `DT <- b` (R28). -/
def State.setDT (s : State) (b : Byte) : State := { s with dt := b }

/-- `ST <- b` (R28). -/
def State.setST (s : State) (b : Byte) : State := { s with st := b }

/-- The state with another memory. -/
def State.setMem (s : State) (m : Memory) : State := { s with mem := m }

/-- The state with another register file. -/
def State.setV (s : State) (v : Vector Byte 16) : State := { s with v := v }

/-- A new framebuffer, and `DIRTY <- 1`: every completed `CLS` and `DRW` sets it (R30). -/
def State.paint (s : State) (fb : Framebuffer) : State := { s with fb := fb, dirty := true }

/-- A random byte has been taken (log 2). -/
def State.countDraw (s : State) : State := { s with draws := s.draws + 1 }

/-! ### Ending an instruction (R104, R107) -/

/-- The instruction completes: `PC` takes its new value and `W <- 0` (R104, R107). -/
def State.complete (s : State) (pc : Word) : State := { s with pc := pc, w := false }

/-- `next`: the default advance, `PC <- (PC + 2) mod 65536` (R10, R104). -/
def State.next (s : State) : State := s.complete (s.pc + 2)

/-- `skip`: `PC <- (PC + 4) mod 65536` (R10, R120). -/
def State.skip (s : State) : State := s.complete (s.pc + 4)

/-- A conditional skip: `skip` where the condition holds, else `next` (R120). -/
def State.skipIf (s : State) (c : Bool) : State := if c then s.skip else s.next

/-- `LD Vx,K` found no key: `W <- 1` and nothing else (R212, R107). -/
def State.await (s : State) : State := { s with w := true }

/-! ### The call stack (R26, R27) -/

/-- Push a return address, or `none` where the stack is full (`SP = 16`). -/
def State.push? (s : State) (ret : Word) : Option State :=
  if h : s.sp.val < 16 then
    some { s with stack := s.stack.set s.sp.val ret, sp := ⟨s.sp.val + 1, Nat.succ_lt_succ h⟩ }
  else none

/-- Pop a return address: the address and the state with `SP` one lower, the slot keeping its value (R26); `none` where
the stack is empty (`SP = 0`). -/
def State.pop? (s : State) : Option (Word × State) :=
  if h : 0 < s.sp.val then
    have below : s.sp.val - 1 < 16 := by have := s.sp.isLt; omega
    some (s.stack[s.sp.val - 1], { s with sp := ⟨s.sp.val - 1, Nat.lt_succ_of_lt below⟩ })
  else none

/-! ### Taking a fault (R231 to R235) -/

/-- The code of a cause, the value `FAULT` holds (R231). -/
def Cause.code : Cause → BitVec 3
  | .noFault => 0
  | .stackOverflow => 1
  | .stackUnderflow => 2
  | .fetchOutOfBounds => 3
  | .memOutOfBounds => 4
  | .keyIndexOutOfRange => 5
  | .romTooLarge => 6

/-- `raise MachineFault(cause)`: no write of the instruction is made, `PC` and `W` stay, `FAULT <- cause` (R233). Control
goes nowhere: there is no vector, no saved register, no mode. The RETURN from a fault does not exist (R235): no
instruction clears the latch, only RESET_LOAD does (`resetLoad`). -/
def raise (c : Cause) (s : State) : Result := .next { s with fault := c }

/-- The engine is halted: `FAULT` is not 0 (R106, R234). -/
def State.halted (s : State) : Bool := s.fault != .noFault

/-! ### Fetch and the unknown word -/

/-- The opcode at `PC`, both bytes read as memory is now and combined high byte first; `none` where `PC > 4094`, since the second byte would lie
outside memory (R54, R101). -/
def fetchWord (s : State) : Option Word :=
  if s.pc.toNat ≤ 4094 then
    some (wordOfBytes (s.mem.read s.pc.toNat) (s.mem.read (s.pc.toNat + 1)))
  else none

/-- A word that matches no row: a no-op that completes with `next` (R105). Its event is an output (`stepReport`). -/
def execUnknown (s : State) : Result := .next s.next

/-- The instruction at `PC`, where there is one. -/
def instrAtPC (s : State) : Option Instr := (fetchWord s).bind decode

/-- Put an instruction's bytes where the next step fetches it. The engine fetches at `PC` when it is not halted and
`PC ≤ 4094` (R101, R106); where that does not hold, the latch is cleared and `PC` is the reset value, which the fetch
needs (log 5). -/
def placeAtPC (s : State) (bytes : List Byte) : State :=
  { s with
    fault := .noFault
    pc := if s.pc.toNat ≤ 4094 then s.pc else BitVec.ofNat 16 Config.progBase
    mem := s.mem.writeBytes (if s.pc.toNat ≤ 4094 then s.pc.toNat else Config.progBase) bytes }

end Sys2Proof.Machine
end

