-- ==== Sys2Proof/Machine/Operands.lean ====
section
/-! DEFINITION. Operand forms: the one addressing mode, register-indirect through `I` with an implicit element offset
(20_memory.md R65), the register ranges of `LD [I],Vx` and `LD Vx,[I]`, key operands, and the digits of `LD B,Vx`. -/

namespace Sys2Proof.Machine

/-! ### Memory operands through `I` (R52, R65, R174) -/

/-- The address of element 0, `I` as an unbounded natural number: sums are never reduced (R52, D21). -/
def base (s : State) : Nat := s.i.toNat

/-- The access of `count` elements at `I` is inside memory: it has no element, or its last address
`I + (count - 1)` is at most 0xFFF (R174). -/
def accessFits (s : State) (count : Nat) : Bool := count == 0 || decide (base s + (count - 1) ≤ 0xFFF)

/-- The bytes of `count` elements from `I` (R65). -/
def loadElements (s : State) (count : Nat) : List Byte := s.mem.readBytes (base s) count

/-- The state with bytes stored from `I` on, `I` itself unchanged (R65). -/
def storeElements (s : State) (bytes : List Byte) : State := s.setMem (s.mem.writeBytes (base s) bytes)

/-! ### Register ranges (R175, R176) -/

/-- The values of `V[0..x]`, `V0` first (R175). -/
def regsUpTo (s : State) (x : Reg) : List Byte := s.v.toList.take (x.val + 1)

/-- The register file after `V[k] <- mem[I + k]` for `k` in `0..x`; registers above `x` keep their values (R176). -/
def regsLoaded (s : State) (x : Reg) : Vector Byte 16 :=
  Vector.ofFn fun k => if k ≤ x then s.mem.read (base s + k.val) else s.reg k

/-! ### Decimal digits (R173) -/

/-- Hundreds, tens, ones of a byte, one digit value a byte (R55, R173). -/
def bcdDigits (b : Byte) : List Byte :=
  [BitVec.ofNat 8 (b.toNat / 100), BitVec.ofNat 8 (b.toNat / 10 % 10), BitVec.ofNat 8 (b.toNat % 10)]

/-! ### Keys (R210 to R212) -/

/-- The key a register value names, where it is 0 to 15; the whole byte is the index, not masked (R210, D10). -/
def keyIndex (b : Byte) : Option (Fin 16) := if h : b.toNat < 16 then some ⟨b.toNat, h⟩ else none

/-- The sixteen key numbers, lowest first. -/
def keyNumbers : List (Fin 16) := [0, 1, 2, 3, 4, 5, 6, 7, 8, 9, 10, 11, 12, 13, 14, 15]

/-- The lowest-numbered pressed key, or `none` where no key is pressed (R212; D11, log 10). -/
def lowestKey (key : Vector Bool 16) : Option (Fin 16) := keyNumbers.find? fun k => key[k]

/-- A key number as the byte `LD Vx,K` writes. -/
def keyByte (k : Fin 16) : Byte := BitVec.ofNat 8 k.val

end Sys2Proof.Machine
end

