-- ==== Sys2Proof/Machine/Flags.lean ====
section
/-! DEFINITION. The flag computations: `VF` is the only flag, an ordinary register written as a side effect by six forms
(10_state.md R22). All are on unsigned values (R152). -/

namespace Sys2Proof.Machine

/-- A flag as the byte written to `VF`: 0 or 1. -/
def flagByte (f : Bool) : Byte := if f then 1 else 0

/-- Carry out of `a + b`: the untruncated sum is above 255 (R147). -/
def carryOut (a b : Byte) : Bool := decide (a.toNat + b.toNat > 255)

/-- `a > b`, strictly (R148, R150, C5). -/
def greater (a b : Byte) : Bool := decide (a.toNat > b.toNat)

/-- The bit a right shift by one pushes out: bit 0 (R149). -/
def bitOutRight (a : Byte) : Bool := a.getLsbD 0

/-- The bit a left shift by one pushes out: bit 7 (R151). -/
def bitOutLeft (a : Byte) : Bool := a.getLsbD 7

/-- Write `VF <- flag`, then `V[x] <- result`: with `x = 0xF` the result overwrites the flag (R140; D4, log 9). -/
def State.setFlagged (s : State) (x : Reg) (flag : Bool) (result : Byte) : State :=
  (s.setReg VF (flagByte flag)).setReg x result

end Sys2Proof.Machine
end

