-- ==== Sys2Proof/Machine/Alu.lean ====
section
/-! DEFINITION. Register load, arithmetic, bitwise, shift and random instructions (42_alu.md R140 to R153). None can
fault and each ends with `next`. Arithmetic on bytes is mod 256 (R152). -/

namespace Sys2Proof.Machine

/-- Write one register and go on: the end of every form here that touches no flag. -/
def writeReg (x : Reg) (b : Byte) (s : State) : Result := .next (s.setReg x b).next

/-- Write the flag, then the result, and go on (R140). -/
def writeFlagged (x : Reg) (flag : Bool) (result : Byte) (s : State) : Result :=
  .next (s.setFlagged x flag result).next

/-- `LD Vx,nn` (R141). -/
def execLdVxNn (x : Reg) (nn : Byte) (s : State) : Result := writeReg x nn s

/-- `ADD Vx,nn` (R142): no flag. -/
def execAddVxNn (x : Reg) (nn : Byte) (s : State) : Result := writeReg x (s.reg x + nn) s

/-- `LD Vx,Vy` (R143). -/
def execLdVxVy (x y : Reg) (s : State) : Result := writeReg x (s.reg y) s

/-- `OR Vx,Vy` (R144): `VF` is not reset. -/
def execOrVxVy (x y : Reg) (s : State) : Result := writeReg x (s.reg x ||| s.reg y) s

/-- `AND Vx,Vy` (R145). -/
def execAndVxVy (x y : Reg) (s : State) : Result := writeReg x (s.reg x &&& s.reg y) s

/-- `XOR Vx,Vy` (R146). -/
def execXorVxVy (x y : Reg) (s : State) : Result := writeReg x (s.reg x ^^^ s.reg y) s

/-- `ADD Vx,Vy` (R147): `VF` is the carry out. -/
def execAddVxVy (x y : Reg) (s : State) : Result :=
  writeFlagged x (carryOut (s.reg x) (s.reg y)) (s.reg x + s.reg y) s

/-- `SUB Vx,Vy` (R148): `VF` is 1 exactly when `Vx > Vy`. -/
def execSubVxVy (x y : Reg) (s : State) : Result :=
  writeFlagged x (greater (s.reg x) (s.reg y)) (s.reg x - s.reg y) s

/-- `SHR Vx` (R149): `V[x]` shifts in place; the `y` field is ignored. -/
def execShrVx (x _y : Reg) (s : State) : Result :=
  writeFlagged x (bitOutRight (s.reg x)) (s.reg x >>> 1) s

/-- `SUBN Vx,Vy` (R150): `VF` is 1 exactly when `Vy > Vx`. -/
def execSubnVxVy (x y : Reg) (s : State) : Result :=
  writeFlagged x (greater (s.reg y) (s.reg x)) (s.reg y - s.reg x) s

/-- `SHL Vx` (R151): `V[x]` shifts in place; the `y` field is ignored. -/
def execShlVx (x _y : Reg) (s : State) : Result :=
  writeFlagged x (bitOutLeft (s.reg x)) (s.reg x <<< 1) s

/-- `RND` with the random byte given: the spec's `rnd` input of the STEP (R153). -/
def randomMasked (r : Byte) (x : Reg) (nn : Byte) (s : State) : Result := writeReg x (r &&& nn) s.countDraw

/-- `RND Vx,nn` (R153): the next random byte, a free value (log 1), under the mask. -/
def execRnd (x : Reg) (nn : Byte) (s : State) : Result := randomMasked (Config.randomByte s.draws) x nn s

end Sys2Proof.Machine
end

