-- ==== Sys2Proof/Machine/ControlFlow.lean ====
section
/-! DEFINITION. Control flow (41_control_flow.md R120 to R129). No target is checked when it is written to `PC` (R129). -/

namespace Sys2Proof.Machine

/-- `RET` (R121): `SP = 0` faults; else `SP <- SP - 1`, `PC <- stack[SP]`. -/
def execRet (s : State) : Result :=
  match s.pop? with
  | some (target, t) => .next (t.complete target)
  | none => raise .stackUnderflow s

/-- `JP nnn` (R122). -/
def execJp (nnn : Addr) (s : State) : Result := .next (s.complete (nnn.setWidth 16))

/-- `CALL nnn` (R123): `SP = 16` faults; else `PC + 2` is pushed and `PC <- nnn`. -/
def execCall (nnn : Addr) (s : State) : Result :=
  match s.push? (s.pc + 2) with
  | some t => .next (t.complete (nnn.setWidth 16))
  | none => raise .stackOverflow s

/-- `SE Vx,nn` (R124). -/
def execSeVxNn (x : Reg) (nn : Byte) (s : State) : Result := .next (s.skipIf (s.reg x == nn))

/-- `SNE Vx,nn` (R125). -/
def execSneVxNn (x : Reg) (nn : Byte) (s : State) : Result := .next (s.skipIf (s.reg x != nn))

/-- `SE Vx,Vy` (R126). -/
def execSeVxVy (x y : Reg) (s : State) : Result := .next (s.skipIf (s.reg x == s.reg y))

/-- `SNE Vx,Vy` (R127). -/
def execSneVxVy (x y : Reg) (s : State) : Result := .next (s.skipIf (s.reg x != s.reg y))

/-- `JP V0,nnn` (R128): the sum is not reduced to 12 bits. -/
def execJpV0 (nnn : Addr) (s : State) : Result :=
  .next (s.complete (nnn.setWidth 16 + (s.reg 0).setWidth 16))

end Sys2Proof.Machine
end

