-- ==== Sys2Proof/Machine/Display.lean ====
section
/-! DEFINITION. Display instructions: clear and XOR-plot (44_display.md R190 to R192). -/

namespace Sys2Proof.Machine

/-- The framebuffer with every pixel 0. -/
def blankScreen : Framebuffer := Vector.replicate 32 (Vector.replicate 64 false)

/-- `CLS` (R190): `DIRTY` is set even if the framebuffer was already all 0. -/
def execCls (s : State) : Result := .next (s.paint blankScreen).next

/-- A drawing under way: the framebuffer and the collision flag so far. -/
abbrev Plot := Framebuffer × Bool

/-- XOR one pixel with 1; a pixel already 1 is a collision, never cleared again (R191). -/
def plotPixel (y : Fin 32) (x : Fin 64) (p : Plot) : Plot :=
  (p.1.set y (p.1[y].set x (!p.1[y][x])), p.2 || p.1[y][x])

/-- One sprite bit: column `col` is bit `7 - col` of the byte (MSB first), plotted with both coordinates reduced, if it
is set (R191). -/
def plotBit (ox row : Nat) (b : Byte) (p : Plot) (col : Nat) : Plot :=
  if b.getLsbD (7 - col) then plotPixel (Fin.ofNat 32 row) (Fin.ofNat 64 (ox + col)) p else p

/-- One sprite row: its eight bits, column 0 first, on framebuffer row `row` mod 32. -/
def plotRow (ox row : Nat) (b : Byte) (p : Plot) : Plot := (List.range 8).foldl (plotBit ox row b) p

/-- The rows of a sprite, the first at framebuffer row `row` mod 32 (R191). -/
def plotRows (ox row : Nat) : List Byte → Plot → Plot
  | [], p => p
  | b :: bs, p => plotRows ox (row + 1) bs (plotRow ox row b p)

/-- `DRW Vx,Vy,n` (R191): origin `(V[x] mod 64, V[y] mod 32)` from the registers before `VF` is written; `n` sprite bytes
from `I`; `VF` is the collision flag; `DIRTY` is set. With `n = 0` no byte is read and nothing faults. -/
def execDrw (x y : Reg) (n : Nibble) (s : State) : Result :=
  if accessFits s n.toNat then
    let p := plotRows ((s.reg x).toNat % 64) ((s.reg y).toNat % 32) (loadElements s n.toNat) (s.fb, false)
    .next ((s.setReg VF (flagByte p.2)).paint p.1).next
  else raise .memOutOfBounds s

end Sys2Proof.Machine
end

