-- ==== Sys2Proof/Machine/IndexMemory.lean ====
section
/-! DEFINITION. Index register and memory instructions (43_index_memory.md R170 to R176). `I` is never modified by an
access (R65); the bound is checked once, before any write (R174). -/

namespace Sys2Proof.Machine

/-- `LD I,nnn` (R170): zero-extended. -/
def execLdINnn (nnn : Addr) (s : State) : Result := .next (s.setI (nnn.setWidth 16)).next

/-- `ADD I,Vx` (R171): mod 65536, no flag. -/
def execAddIVx (x : Reg) (s : State) : Result := .next (s.setI (s.i + (s.reg x).setWidth 16)).next

/-- `LD F,Vx` (R172): the whole byte times 5, not masked to a nibble. -/
def execLdFVx (x : Reg) (s : State) : Result := .next (s.setI (BitVec.ofNat 16 ((s.reg x).toNat * 5))).next

/-- `LD B,Vx` (R173): the three decimal digits to `I`, `I+1`, `I+2`. -/
def execLdBVx (x : Reg) (s : State) : Result :=
  if accessFits s 3 then .next (storeElements s (bcdDigits (s.reg x))).next
  else raise .memOutOfBounds s

/-- `LD [I],Vx` (R175): `V[0..x]` to `mem[I..I+x]`. -/
def execLdIVx (x : Reg) (s : State) : Result :=
  if accessFits s (x.val + 1) then .next (storeElements s (regsUpTo s x)).next
  else raise .memOutOfBounds s

/-- `LD Vx,[I]` (R176): `mem[I..I+x]` to `V[0..x]`. -/
def execLdVxI (x : Reg) (s : State) : Result :=
  if accessFits s (x.val + 1) then .next (s.setV (regsLoaded s x)).next
  else raise .memOutOfBounds s

end Sys2Proof.Machine
end

