-- ==== Sys2Proof/Machine/KeypadTimers.lean ====
section
/-! DEFINITION. Keypad and timer instructions (45_keypad_timers.md R210 to R215). -/

namespace Sys2Proof.Machine

/-- `SKP Vx` (R210): `V[x] > 15` faults; skip if the key it names is pressed. -/
def execSkp (x : Reg) (s : State) : Result :=
  match keyIndex (s.reg x) with
  | some k => .next (s.skipIf (s.keyDown k))
  | none => raise .keyIndexOutOfRange s

/-- `SKNP Vx` (R211): as `SKP`, with the condition turned round. -/
def execSknp (x : Reg) (s : State) : Result :=
  match keyIndex (s.reg x) with
  | some k => .next (s.skipIf (!s.keyDown k))
  | none => raise .keyIndexOutOfRange s

/-- `LD Vx,K` (R212): with no key pressed the STEP waits, `PC` staying; else the lowest pressed key goes to `V[x]`. -/
def execLdVxK (x : Reg) (s : State) : Result :=
  match lowestKey s.key with
  | some k => .next (s.setReg x (keyByte k)).next
  | none => .next s.await

/-- `LD Vx,DT` (R213). -/
def execLdVxDT (x : Reg) (s : State) : Result := .next (s.setReg x s.dt).next

/-- `LD DT,Vx` (R214). -/
def execLdDTVx (x : Reg) (s : State) : Result := .next (s.setDT (s.reg x)).next

/-- `LD ST,Vx` (R215). -/
def execLdSTVx (x : Reg) (s : State) : Result := .next (s.setST (s.reg x)).next

end Sys2Proof.Machine
end

