-- ==== Sys2Proof/Machine/Step.lean ====
section
/-! DEFINITION. The STEP transaction (40_step_cycle.md R100, R108): halt check, fetch, decode, execute. The program
counter and `W` are updated by the meanings (R104, R107). -/

namespace Sys2Proof.Machine

/-- Decode and execute a fetched word (R102, R103, R105). -/
def execWord (op : Word) (s : State) : Host.Outcome State Fault Refusal :=
  match decode op with
  | some i => exec i s
  | none => execUnknown s

/-- One STEP: nothing where the engine is halted (R106), the fetch fault where `PC > 4094` (R101), else one
instruction (R108). -/
def step (s : State) : Host.Outcome State Fault Refusal :=
  if s.halted then .next s
  else
    match fetchWord s with
    | some op => execWord op s
    | none => raise .fetchOutOfBounds s

/-- The state with an instruction, its bits numbered as the opcode table numbers them, stored where the next step
fetches it. -/
def State.withFetchWord (s : State) (nbits w : Nat) : State := placeAtPC s (tableBytes nbits w)

end Sys2Proof.Machine
end

