-- ==== Sys2Proof/Machine/Transactions.lean ====
section
/-! DEFINITION. The host's five transactions (60_exceptions.md R247, R253), the outputs of a STEP (R108, R240) and the
read-only outputs (R193). `Sys2Proof.Machine.step` is the STEP transaction alone; TICK, KEYS, DRAW_ACK and RESET_LOAD are
the functions here, in any order the host chooses (R246; log 14). -/

namespace Sys2Proof.Machine

/-! ### RESET_LOAD (R270, R37, R38) -/

/-- The cleared state with the font and the ROM in memory (R270); the model's own counter goes on (log 2). -/
def loadedState (draws : Nat) (rom : List Byte) : State :=
  { State.reset with mem := Memory.writeBytes [] Config.progBase rom, draws := draws }

/-- The state a ROM that is too long leaves: fully reset, no byte of it copied, `FAULT = 6` (R38, D15). -/
def rejectedState (draws : Nat) : State := { State.reset with fault := .romTooLarge, draws := draws }

/-- RESET_LOAD: "Fails with `RomTooLarge` if `len(rom) > 3584`" (R270). -/
def resetLoad (draws : Nat) (rom : List Byte) : State :=
  if rom.length ≤ Config.romMax then loadedState draws rom else rejectedState draws

/-! ### TICK, KEYS, DRAW_ACK (R244, R248) -/

/-- One timer's countdown: by exactly 1 while above 0, floored at 0 (R28, R244). -/
def countDown (b : Byte) : Byte := if b.toNat > 0 then b - 1 else b

/-- TICK: both timers, independently, whatever the engine's condition (R244, R234). -/
def tick (s : State) : State := { s with dt := countDown s.dt, st := countDown s.st }

/-- KEYS: `key[i] <- bit i` for all sixteen (R247, R248). -/
def keys (bits : BitVec 16) (s : State) : State := { s with key := Vector.ofFn fun k => bits.getLsbD k.val }

/-- DRAW_ACK: `DIRTY <- 0` and nothing else (R248, D13). -/
def drawAck (s : State) : State := { s with dirty := false }

/-! ### What the host sees (R193, R240, R247) -/

/-- The event of an unknown word: the opcode and the `PC` it was fetched from (R240). An output, not state (D17; log 4). -/
structure UnknownOpcode where
  op : Word
  pc : Word
  deriving DecidableEq, Repr

/-- The outcome of a STEP (R11, R108, R247). -/
inductive StepOutcome where
  /-- The instruction's writes are made and `PC` is advanced or set; an unknown word's event, or none. -/
  | completed (event : Option UnknownOpcode)
  /-- `LD Vx,K` found no key. -/
  | waiting
  /-- A fatal fault was raised; the engine is halted afterwards. -/
  | faulted (c : Cause)
  /-- The engine was halted already: nothing happened. -/
  | halted
  deriving DecidableEq, Repr

/-- The read-only outputs the host may sample between transactions (R247). -/
structure Outputs where
  fb : Framebuffer
  dirty : Bool
  w : Bool
  fault : BitVec 3
  deriving DecidableEq, Repr

/-- The outputs of a state (R193, R247). -/
def outputs (s : State) : Outputs := { fb := s.fb, dirty := s.dirty, w := s.w, fault := s.fault.code }

/-- The event of a STEP from `s`: its word matches no row (R105, R240). -/
def unknownEvent (s : State) : Option UnknownOpcode :=
  match fetchWord s with
  | some op => if (decode op).isNone then some { op := op, pc := s.pc } else none
  | none => none

/-- The outcome a STEP from `s` to `t` reports (R108): halted before, a cause latched, `W` set, or completed. -/
def stepReport (s t : State) : StepOutcome :=
  if s.halted then .halted
  else if t.halted then .faulted t.fault
  else if t.w then .waiting
  else .completed (unknownEvent s)

/-! ### Transactions (R247, R253) -/

/-- The five transactions of R247. -/
inductive Transaction where
  | resetLoad (rom : List Byte)
  | step
  | tick
  | keys (bits : BitVec 16)
  | drawAck
  deriving DecidableEq, Repr

/-- What a transaction reports to the host (R247). -/
inductive Response where
  /-- RESET_LOAD succeeded. -/
  | ok
  /-- RESET_LOAD failed: the ROM is longer than 3584 bytes. -/
  | romTooLarge
  /-- A STEP ran, with its outcome. -/
  | stepped (o : StepOutcome)
  /-- TICK, KEYS or DRAW_ACK was done; they report nothing. -/
  | done
  /-- Not admitted before the first RESET_LOAD (R39, R253). -/
  | refused
  deriving DecidableEq, Repr

/-- The STEP transaction with its report. Every arm of `exec` answers a next state; were one to stop, the engine would
keep its state and the host would be refused. -/
def stepTransaction (s : State) : State × Response :=
  match step s with
  | .next t => (t, .stepped (stepReport s t))
  | .fault _ => (s, .refused)
  | .refused _ => (s, .refused)

/-- A transaction on a loaded engine. -/
def transactLoaded (a : Transaction) (s : State) : State × Response :=
  match a with
  | .resetLoad rom =>
    (Sys2Proof.Machine.resetLoad s.draws rom, if rom.length ≤ Config.romMax then .ok else .romTooLarge)
  | .step => stepTransaction s
  | .tick => (Sys2Proof.Machine.tick s, .done)
  | .keys bits => (Sys2Proof.Machine.keys bits s, .done)
  | .drawAck => (Sys2Proof.Machine.drawAck s, .done)

/-- A transaction on an engine never loaded: only RESET_LOAD is admitted (R39, R253; log 15). -/
def transactUnloaded (a : Transaction) : Option State × Response :=
  match a with
  | .resetLoad rom =>
    (some (Sys2Proof.Machine.resetLoad 0 rom), if rom.length ≤ Config.romMax then .ok else .romTooLarge)
  | .step | .tick | .keys _ | .drawAck => (none, .refused)

/-- A transaction in any condition; `none` is the engine before its first RESET_LOAD (R39). -/
def transact (a : Transaction) (m : Option State) : Option State × Response :=
  match m with
  | some s => (some (transactLoaded a s).1, (transactLoaded a s).2)
  | none => transactUnloaded a

/-- A sequence of transactions, the first one first: any interleaving the host chooses (R5, R246). -/
def runTransactions : List Transaction → Option State → Option State
  | [], m => m
  | a :: as, m => runTransactions as (transact a m).1

end Sys2Proof.Machine
end

