-- ==== Sys2Proof/Safety.lean ====
section
/-! DEFINITION. The terms claims use: the invariant, the frames ("what is left unchanged"), the registers a form names as
its destination, the pixels a sprite lights, and the ends of a run. -/

namespace Sys2Proof.Machine

/-! ### The invariant -/

/-- The word at `PC` is an `LD Vx,K` (R32: "while awaiting, `PC` still points at the `LD Vx,K`"). -/
def atKeyWait (s : State) : Bool :=
  match instrAtPC s with
  | some i => i.mnemonic == "LD_Vx_K"
  | none => false

/-- What every state after a RESET_LOAD meets, and every transaction keeps: memory is in its canonical form; `PC` is at
most 0x10FE (R24, R128); every return address is at most 4096 (R123); and the awaiting-key flag is set only while the engine
is not halted and `PC` points at an `LD Vx,K` (R32, R253). -/
def Inv (s : State) : Prop :=
  s.mem.wf = true ∧ s.pc.toNat ≤ 0x10FE ∧ (∀ k : Fin 16, (s.slot k).toNat ≤ 4096) ∧
    (s.w = true → s.fault = .noFault ∧ atKeyWait s = true)

/-! ### Frames -/

/-- Every byte of memory reads as before. -/
def SameMem (s t : State) : Prop := ∀ a : Nat, t.mem.read a = s.mem.read a

/-- Every byte of memory outside the `n` addresses from `a` on reads as before. -/
def SameMemOutside (a n : Nat) (s t : State) : Prop := ∀ b : Nat, b < a ∨ a + n ≤ b → t.mem.read b = s.mem.read b

/-- Every V register but the listed ones is as before. -/
def SameRegsBut (ds : List Reg) (s t : State) : Prop := ∀ r : Reg, r ∉ ds → t.reg r = s.reg r

/-- The call stack and its pointer are as before. -/
def SameStack (s t : State) : Prop := t.sp = s.sp ∧ ∀ k : Fin 16, t.slot k = s.slot k

/-- Both timers are as before. -/
def SameTimers (s t : State) : Prop := t.dt = s.dt ∧ t.st = s.st

/-- Every pixel and the dirty flag are as before. -/
def SameScreen (s t : State) : Prop := (∀ (y : Fin 32) (x : Fin 64), t.pixel y x = s.pixel y x) ∧ t.dirty = s.dirty

/-- The key states, the fault latch and the model's count of random bytes are as before. -/
def SameRest (s t : State) : Prop := (∀ k : Fin 16, t.keyDown k = s.keyDown k) ∧ t.fault = s.fault ∧ t.draws = s.draws

/-- Nothing changes but the listed V registers, `PC` and `W`. -/
def OnlyRegs (ds : List Reg) (s t : State) : Prop :=
  SameRegsBut ds s t ∧ t.i = s.i ∧ SameMem s t ∧ SameStack s t ∧ SameTimers s t ∧ SameScreen s t ∧ SameRest s t

/-- Nothing changes but `I`, `PC` and `W`. -/
def OnlyIndex (s t : State) : Prop :=
  SameRegsBut [] s t ∧ SameMem s t ∧ SameStack s t ∧ SameTimers s t ∧ SameScreen s t ∧ SameRest s t

/-- Nothing changes but the `n` bytes from address `a` on, `PC` and `W`. -/
def OnlyBytes (a n : Nat) (s t : State) : Prop :=
  SameRegsBut [] s t ∧ t.i = s.i ∧ SameMemOutside a n s t ∧ SameStack s t ∧ SameTimers s t ∧ SameScreen s t ∧
    SameRest s t

/-- Nothing changes but the call stack, its pointer, `PC` and `W`. -/
def OnlyStack (s t : State) : Prop :=
  SameRegsBut [] s t ∧ t.i = s.i ∧ SameMem s t ∧ SameTimers s t ∧ SameScreen s t ∧ SameRest s t

/-- Nothing changes but the timers, `PC` and `W`. -/
def OnlyTimers (s t : State) : Prop :=
  SameRegsBut [] s t ∧ t.i = s.i ∧ SameMem s t ∧ SameStack s t ∧ SameScreen s t ∧ SameRest s t

/-- Nothing changes but the screen, the dirty flag, the listed V registers, `PC` and `W`. -/
def OnlyScreen (ds : List Reg) (s t : State) : Prop :=
  SameRegsBut ds s t ∧ t.i = s.i ∧ SameMem s t ∧ SameStack s t ∧ SameTimers s t ∧ SameRest s t

/-- A precise fault: the cause is latched and nothing else changes (R233). -/
def FaultsWith (c : Cause) (s : State) (r : Result) : Prop :=
  ∃ t, r = .next t ∧ t.fault = c ∧ t = { s with fault := t.fault }

/-! ### Stored code (R62) -/

/-- The byte at address `a` after `LD [I],Vx` from `s`: `V[k]` at `I + k` for `k` up to `x`, else the byte as it was (R175). -/
def registerStoreByte (x : Reg) (s : State) (a : Nat) : Byte :=
  if h : base s ≤ a ∧ a ≤ base s + x.val then s.reg ⟨a - base s, by have := x.isLt; omega⟩ else s.mem.read a

/-- The byte at address `a` after `LD B,Vx` from `s`: hundreds, tens and ones of `V[x]` at `I`, `I+1`, `I+2`, else the byte as it
was (R173). -/
def decimalStoreByte (x : Reg) (s : State) (a : Nat) : Byte :=
  if a = base s then BitVec.ofNat 8 ((s.reg x).toNat / 100)
  else if a = base s + 1 then BitVec.ofNat 8 ((s.reg x).toNat / 10 % 10)
  else if a = base s + 2 then BitVec.ofNat 8 ((s.reg x).toNat % 10)
  else s.mem.read a

/-- The state fetches the word, and, where the engine is not halted, its STEP runs it: the instruction the word decodes to,
or the no-op of an unknown word (R101 to R105). -/
def RunsWord (u : State) (op : Word) : Prop :=
  fetchWord u = some op ∧
    (u.fault = .noFault → (∀ i, decode op = some i → step u = exec i u) ∧ (decode op = none → step u = .next u.next))

/-! ### The model's own count -/

/-- The count of random bytes a RESET_LOAD finds: the engine's, or 0 before the first RESET_LOAD (log 2, log 15). -/
def drawsOf (m : Option State) : Nat := (m.map State.draws).getD 0

/-! ### Destinations -/

/-- The V registers a form names as its destination (R40, column "writes", less the flag). -/
def namedDestinations : Instr → List Reg
  | .ldVxNn x _ | .addVxNn x _ | .rnd x _ => [x]
  | .ldVxVy x _ | .orVxVy x _ | .andVxVy x _ | .xorVxVy x _ => [x]
  | .addVxVy x _ | .subVxVy x _ | .shrVx x _ | .subnVxVy x _ | .shlVx x _ => [x]
  | .ldVxDT x | .ldVxK x => [x]
  | .ldVxI x => (List.finRange 16).filter (fun k => decide (k ≤ x))
  | .cls | .ret | .jp _ | .call _ | .seVxNn _ _ | .sneVxNn _ _ | .seVxVy _ _ | .sneVxVy _ _ | .ldINnn _ | .jpV0 _
  | .drw _ _ _ | .skp _ | .sknp _ | .ldDTVx _ | .ldSTVx _ | .addIVx _ | .ldFVx _ | .ldBVx _ | .ldIVx _ => []

/-- The six forms that write `VF` as a side effect (R22). -/
def writesFlag : Instr → Bool
  | .addVxVy _ _ | .subVxVy _ _ | .shrVx _ _ | .subnVxVy _ _ | .shlVx _ _ | .drw _ _ _ => true
  | .cls | .ret | .jp _ | .call _ | .seVxNn _ _ | .sneVxNn _ _ | .seVxVy _ _ | .sneVxVy _ _ | .ldVxNn _ _ | .addVxNn _ _
  | .ldVxVy _ _ | .orVxVy _ _ | .andVxVy _ _ | .xorVxVy _ _ | .ldINnn _ | .jpV0 _ | .rnd _ _ | .skp _ | .sknp _
  | .ldVxDT _ | .ldVxK _ | .ldDTVx _ | .ldSTVx _ | .addIVx _ | .ldFVx _ | .ldBVx _ | .ldIVx _ | .ldVxI _ => false

/-! ### Sprites -/

/-- The sprite of `DRW Vx,Vy,n` lights the pixel `(py, px)`: counted from the origin `(V[y] mod 32, V[x] mod 64)` round the
edges, the pixel lies in the sprite's `n` rows and 8 columns, and the sprite's bit there is set, bit 7 leftmost (R191). -/
def spriteLights (s : State) (x y : Reg) (n : Nat) (py : Fin 32) (px : Fin 64) : Bool :=
  let row := (py.val + 32 - (s.reg y).toNat % 32) % 32
  let col := (px.val + 64 - (s.reg x).toNat % 64) % 64
  decide (row < n) && decide (col < 8) && (s.mem.read (s.i.toNat + row)).getLsbD (7 - col)

/-! ### The ends of a run (R284, D26; log 19) -/

/-- The engine is running and the instruction at `PC` is a jump to itself. -/
def EndsWell (s : State) : Prop :=
  s.fault = .noFault ∧ ∃ nnn : Addr, instrAtPC s = some (.jp nnn) ∧ nnn.toNat = s.pc.toNat

/-- The engine is halted. -/
def EndsBadly (s : State) : Prop := s.fault ≠ .noFault

end Sys2Proof.Machine
end

