-- ==== Sys2Proof/Certificates/Slice0/Obligations.lean ====
section
/-! DEFINITION. The statements for the provers, from the spec's numbered rules. A statement that rests on a decision the
spec marks as its own (`D<n>`) or on an entry of the assumption log says so in its docstring. -/

open Sys2Proof Sys2Proof.Machine

/-! ### Encoding and decoding -/

/-- Decoding an encoded instruction gives it back, for every form and every operand value, as a word and as two bytes
followed by anything (R70, R71, R72, R76; opcode numbers D2, log 7). That `SHR` and `SHL` have a `y` to give back is the
model's choice (log 16). -/
def Obligations.DecodeOfEncode : Prop :=
  ∀ i : Instr, decode (encode i) = some i ∧
    ∀ rest : List Byte, decodeBytes (encodeBytes i ++ rest) = .ok (i, rest)

/-- The other direction: a known word is the encoding of what it decodes to, but for the ignored bits of groups 0 (bits
11..8), 5 and 9 (bits 3..0), which the encoding has 0 (R74, R76; numbers D2, log 7; ignored bits D3, log 8). R74 counts bits
7..4 of `SHR` and `SHL` as ignored too; that they come back as they were, and not 0, is THE MODEL'S CHOICE: the two terms
carry their ignored `y` (log 16). -/
def Obligations.EncodeOfDecode : Prop :=
  ∀ (op : Word) (i : Instr), decode op = some i →
    encode i = if op.toNat / 0x1000 = 0 then op &&& 0xF0FF
      else if op.toNat / 0x1000 = 5 ∨ op.toNat / 0x1000 = 9 then op &&& 0xFFF0
      else op

/-- The decoder is the opcode map of R76: a word is the form of a row exactly when it matches the row under its mask, no
word matches two rows, and a word of no row is unknown (numbers D2, log 7; ignored bits D3, log 8). -/
def Obligations.OpcodeMapGovernsDecode : Prop :=
  ∀ op : Word,
    (∀ row ∈ opcodeRows, row.matches op = true ↔ ∃ i, decode op = some i ∧ i.mnemonic = row.mnemonic) ∧
    (∀ row ∈ opcodeRows, ∀ row' ∈ opcodeRows, row.matches op = true → row'.matches op = true → row = row') ∧
    (decode op = none ↔ ∀ row ∈ opcodeRows, row.matches op = false)

/-- The unknown words are exactly those R78 lists (numbers D2, log 7; selectors D3, log 8). -/
def Obligations.UnknownWordsAreExactly : Prop :=
  ∀ op : Word, decode op = none ↔
    (op.toNat / 0x1000 = 0x0 ∧ op.toNat % 0x100 ∉ [0xE0, 0xEE]) ∨
    (op.toNat / 0x1000 = 0x8 ∧ op.toNat % 0x10 ∈ [0x8, 0x9, 0xA, 0xB, 0xC, 0xD, 0xF]) ∨
    (op.toNat / 0x1000 = 0xE ∧ op.toNat % 0x100 ∉ [0x9E, 0xA1]) ∨
    (op.toNat / 0x1000 = 0xF ∧
      op.toNat % 0x100 ∉ [0x07, 0x0A, 0x15, 0x18, 0x1E, 0x29, 0x33, 0x55, 0x65])

/-- The encodings the source itself shows (R75): the bytes of `LD V0,10`, `LD V1,5`, `ADD V0,V1`, `CLS` and a `DRW`, and
what R75 reads off them, `6xnn`, `8xy4` and `Dxyn` for every operand. -/
def Obligations.ShownEncodingsDecode : Prop :=
  decodeBytes [0x60, 0x0A] = .ok (.ldVxNn 0 10, []) ∧ decodeBytes [0x61, 0x05] = .ok (.ldVxNn 1 5, []) ∧
  decodeBytes [0x80, 0x14] = .ok (.addVxVy 0 1, []) ∧ decodeBytes [0x00, 0xE0] = .ok (.cls, []) ∧
  decodeBytes [0xD0, 0x05] = .ok (.drw 0 0 5, []) ∧
  (∀ (x : Reg) (nn : Byte),
    decode (BitVec.ofNat 16 (0x6000 + x.val * 0x100 + nn.toNat)) = some (.ldVxNn x nn)) ∧
  (∀ x y : Reg, decode (BitVec.ofNat 16 (0x8004 + x.val * 0x100 + y.val * 0x10)) = some (.addVxVy x y)) ∧
  (∀ (x y : Reg) (n : Nibble),
    decode (BitVec.ofNat 16 (0xD000 + x.val * 0x100 + y.val * 0x10 + n.toNat)) = some (.drw x y n))

/-- Words of every family and of every format, written out from their rows of R76 (numbers D2, log 7): control flow, compares,
register loads, arithmetic and shifts, random, index and memory, display, keys, timers; formats `Z`, `A`, `XB`, `XY`, `XYN`, `X`.
The word 834E is not canonical: that it decodes is D3 (log 8), and that its term carries the ignored `y` is the model's choice
(log 16). An unknown word and a lone byte are rejected by name. -/
def Obligations.WrittenOutWordsDecode : Prop :=
  (decodeBytes [0x00, 0xEE] = .ok (.ret, []) ∧ decodeBytes [0x12, 0x34] = .ok (.jp 0x234, []) ∧
    decodeBytes [0x3A, 0x7F] = .ok (.seVxNn 0xA 0x7F, []) ∧ decodeBytes [0x5A, 0xB0] = .ok (.seVxVy 0xA 0xB, [])) ∧
  (decodeBytes [0x6E, 0xC1] = .ok (.ldVxNn 0xE 0xC1, []) ∧ decodeBytes [0xC9, 0x0F] = .ok (.rnd 9 0x0F, []) ∧
    decodeBytes [0x81, 0x25] = .ok (.subVxVy 1 2, []) ∧ decodeBytes [0x83, 0x4E] = .ok (.shlVx 3 4, [])) ∧
  (decodeBytes [0xA2, 0xF0] = .ok (.ldINnn 0x2F0, []) ∧ decodeBytes [0xF4, 0x33] = .ok (.ldBVx 4, []) ∧
    decodeBytes [0x00, 0xE0] = .ok (.cls, []) ∧ decodeBytes [0xD1, 0x2F] = .ok (.drw 1 2 0xF, [])) ∧
  (decodeBytes [0xEF, 0xA1] = .ok (.sknp 0xF, []) ∧ decodeBytes [0xF3, 0x0A] = .ok (.ldVxK 3, []) ∧
    decodeBytes [0xF5, 0x07] = .ok (.ldVxDT 5, []) ∧ decodeBytes [0xF6, 0x15] = .ok (.ldDTVx 6, []) ∧
    decodeBytes [0xF7, 0x18] = .ok (.ldSTVx 7, [])) ∧
  decodeBytes [0x81, 0x28] = .error (.unknownOpcode 0x8128) ∧ decodeBytes [0x12] = .error .truncated

/-! ### The step cycle -/

/-- Where the engine is not halted and the two bytes at `PC ≤ 4094` decode to an instruction, the step is `exec` of it on
the state as it is: the fetch changes nothing and the meaning itself advances `PC` (R100 to R104; the halt check is D16,
log 13). -/
def Obligations.StepRunsTheDecodedInstruction : Prop :=
  ∀ (s : State) (i : Instr), s.fault = .noFault → s.pc.toNat ≤ 4094 →
    decodeBytes [s.mem.read s.pc.toNat, s.mem.read (s.pc.toNat + 1)] = .ok (i, []) → step s = exec i s

/-- The fetch is big-endian (R54): the opcode is the byte at `PC` times 256 plus the byte at `PC + 1`; the byte at the
lower address holds `top` and `x`, the one at the higher address holds `nn`. -/
def Obligations.FetchIsBigEndian : Prop :=
  ∀ s : State, s.pc.toNat ≤ 4094 → ∃ op : Word, fetchWord s = some op ∧
    op.toNat = (s.mem.read s.pc.toNat).toNat * 256 + (s.mem.read (s.pc.toNat + 1)).toNat ∧
    (s.mem.read s.pc.toNat).toNat = (fieldTop op).toNat * 16 + (fieldX op).val ∧
    s.mem.read (s.pc.toNat + 1) = fieldNn op

/-- A fetch above 4094 faults with code 3, precisely (R101; D6, log 11; the latch is D16, log 13). -/
def Obligations.FetchAboveMemoryFaults : Prop :=
  ∀ s : State, s.fault = .noFault → 4094 < s.pc.toNat →
    FaultsWith .fetchOutOfBounds s (step s) ∧ Cause.code .fetchOutOfBounds = 3

/-- An unknown word is a no-op that advances `PC` by 2, clears `W` and reports its opcode and `PC` (R105; the event is D17,
log 4, and `W` is D18, log 13). -/
def Obligations.UnknownWordIsANoOp : Prop :=
  ∀ (s : State) (op : Word), s.fault = .noFault → fetchWord s = some op → decode op = none →
    ∃ t, step s = .next t ∧ t.pc = s.pc + 2 ∧ t.w = false ∧ OnlyRegs [] s t ∧
      stepReport s t = .completed (some { op := op, pc := s.pc })

/-- A halted engine changes nothing and reports so (R106; D16, log 13). -/
def Obligations.HaltedStepChangesNothing : Prop :=
  ∀ s : State, s.fault ≠ .noFault → step s = .next s ∧ stepReport s s = .halted

/-- Every instruction and every STEP answers a next state, in every state: a STEP always terminates with one of the four
outcomes, none of which is a stop (R11, R100; that a fault is a next state is log 3). -/
def Obligations.EveryStepAnswers : Prop :=
  (∀ (i : Instr) (s : State), ∃ t, exec i s = .next t) ∧ ∀ s : State, ∃ t, step s = .next t

/-- Faults are precise: a STEP that latches a cause changes nothing else (R233; D16, log 13). -/
def Obligations.FaultsArePrecise : Prop :=
  ∀ s t : State, s.fault = .noFault → step s = .next t → t.fault ≠ .noFault →
    t = { s with fault := t.fault } ∧ stepReport s t = .faulted t.fault

/-- Exactly the conditions of R231 raise exactly its causes, with its codes; no step raises `RomTooLarge` (D5, D6, D8, D10,
D16; log 11, log 13). -/
def Obligations.FaultCausesAreExactly : Prop :=
  (∀ s t : State, s.fault = .noFault → step s = .next t →
    (t.fault = .fetchOutOfBounds ↔ 4094 < s.pc.toNat) ∧
    (t.fault = .stackOverflow ↔ ∃ nnn, instrAtPC s = some (.call nnn) ∧ s.sp.val = 16) ∧
    (t.fault = .stackUnderflow ↔ instrAtPC s = some .ret ∧ s.sp.val = 0) ∧
    (t.fault = .memOutOfBounds ↔
      (∃ x, instrAtPC s = some (.ldBVx x) ∧ 0xFFF < s.i.toNat + 2) ∨
      (∃ x, instrAtPC s = some (.ldIVx x) ∧ 0xFFF < s.i.toNat + x.val) ∨
      (∃ x, instrAtPC s = some (.ldVxI x) ∧ 0xFFF < s.i.toNat + x.val) ∨
      (∃ x y n, instrAtPC s = some (.drw x y n) ∧ 0 < n.toNat ∧ 0xFFF < s.i.toNat + (n.toNat - 1))) ∧
    (t.fault = .keyIndexOutOfRange ↔
      ∃ x, (instrAtPC s = some (.skp x) ∨ instrAtPC s = some (.sknp x)) ∧ 15 < (s.reg x).toNat) ∧
    t.fault ≠ .romTooLarge) ∧
  Cause.code .noFault = 0 ∧ Cause.code .stackOverflow = 1 ∧ Cause.code .stackUnderflow = 2 ∧
  Cause.code .fetchOutOfBounds = 3 ∧ Cause.code .memOutOfBounds = 4 ∧ Cause.code .keyIndexOutOfRange = 5 ∧
  Cause.code .romTooLarge = 6

/-- `W` after a STEP of a running engine: 1 after a waiting `LD Vx,K`, as it was after a fault, 0 after every completed
instruction (R107; `W` is D18, log 13). -/
def Obligations.AwaitingFlagFollowsTheOutcome : Prop :=
  ∀ s t : State, s.fault = .noFault → step s = .next t →
    (t.fault ≠ .noFault → t.w = s.w) ∧
    (t.fault = .noFault → (t.w = true ↔
      (∃ x, instrAtPC s = some (.ldVxK x)) ∧ ∀ k : Fin 16, s.keyDown k = false))

/-! ### Invariants -/

/-- Every STEP keeps the invariant: canonical memory, `PC ≤ 0x10FE`, return addresses at most 4096, and `W` set only while
a running engine's `PC` points at an `LD Vx,K` (R24, R32, R253; the canonical form is log 6, `W` is D18, log 13). -/
def Obligations.StepKeepsInv : Prop :=
  ∀ s t : State, Inv s → step s = .next t → Inv t

/-- The invariant holds at reset and after RESET_LOAD of any ROM, too long or not (R37, R38, R270). The canonical form of memory
is log 6; which state the model calls reset is log 5; what a ROM that is too long leaves is D15, and that `W` and the latch
are clear after a load is D14 (log 13); what `W` means is D18 (log 13). -/
def Obligations.ResetMeetsInv : Prop :=
  Inv State.reset ∧ ∀ (draws : Nat) (rom : List Byte), Inv (resetLoad draws rom)

/-- Every transaction keeps the invariant, so it holds in every state any sequence of transactions reaches from an engine
never loaded, whatever interleaving the host chooses (R246, R247; log 14, log 15). -/
def Obligations.TransactionsKeepInv : Prop :=
  (∀ (a : Transaction) (s : State), Inv s → Inv (transactLoaded a s).1) ∧
  ∀ (as : List Transaction) (s : State), runTransactions as none = some s → Inv s

/-! ### Reset and the host's transactions -/

/-- What RESET_LOAD of a ROM of at most 3584 bytes leaves, item by item (R37, R270; zero for every item is D14, log 13,
the font bytes are D19, log 6, the counter is log 2). The state the model calls reset is RESET_LOAD of an empty ROM (log 5). -/
def Obligations.ResetLoadLeaves : Prop :=
  (∀ (draws : Nat) (rom : List Byte), rom.length ≤ 3584 →
    let t := resetLoad draws rom
    (∀ a, a < 0x50 → t.mem.read a = font.getD a 0) ∧ (∀ a, 0x50 ≤ a → a < 0x200 → t.mem.read a = 0) ∧
    (∀ k (h : k < rom.length), t.mem.read (0x200 + k) = rom[k]) ∧
    (∀ a, 0x200 + rom.length ≤ a → t.mem.read a = 0) ∧
    (∀ r, t.reg r = 0) ∧ t.i = 0 ∧ t.pc = 0x200 ∧ (∀ k, t.slot k = 0) ∧ t.sp.val = 0 ∧ t.dt = 0 ∧ t.st = 0 ∧
    (∀ y x, t.pixel y x = false) ∧ t.dirty = false ∧ (∀ k, t.keyDown k = false) ∧ t.w = false ∧
    t.fault = .noFault) ∧
  State.reset = resetLoad 0 []

/-- A ROM of more than 3584 bytes is refused, on a loaded engine and on one never loaded: the state is that of an empty ROM
with `FAULT = 6`, the host is told, and the engine is halted (R38, R237, R253; D15, D16, log 13; never loaded: D22, log 15). -/
def Obligations.OversizeRomIsRefused : Prop :=
  ∀ (s : State) (rom : List Byte), 3584 < rom.length →
    transactLoaded (.resetLoad rom) s =
      ({ resetLoad s.draws [] with fault := .romTooLarge }, .romTooLarge) ∧
    transact (.resetLoad rom) none = (some { resetLoad 0 [] with fault := .romTooLarge }, .romTooLarge) ∧
    step (resetLoad s.draws rom) = .next (resetLoad s.draws rom)

/-- RESET_LOAD may be issued in any condition, before the first RESET_LOAD too, and gives the same result for the same ROM:
always a loaded engine, in the state `ResetLoadLeaves` describes with report `ok` for a ROM of at most 3584 bytes, and with
report `RomTooLarge` for a longer one (R272, R253, R270). Only the model's own count of random bytes goes on (log 2); the engine
never loaded is log 15. -/
def Obligations.ResetLoadForgets : Prop :=
  ∀ (m : Option State) (rom : List Byte),
    (transact (.resetLoad rom) m).1 = some (resetLoad (drawsOf m) rom) ∧
    (rom.length ≤ 3584 → (transact (.resetLoad rom) m).2 = .ok) ∧
    (3584 < rom.length → (transact (.resetLoad rom) m).2 = .romTooLarge) ∧
    ∀ m' : Option State,
      (transact (.resetLoad rom) m).1.map (fun t => { t with draws := 0 }) =
        (transact (.resetLoad rom) m').1.map (fun t => { t with draws := 0 }) ∧
      (transact (.resetLoad rom) m).2 = (transact (.resetLoad rom) m').2

/-- TICKs: each timer goes down by 1 a TICK while above 0 and stays at 0, independently, and nothing else changes, in any
condition of the engine (R244; running while halted is D16, log 13). -/
def Obligations.TicksCountDown : Prop :=
  ∀ (s : State) (k : Nat),
    ((tick^[k]) s).dt.toNat = s.dt.toNat - k ∧ ((tick^[k]) s).st.toNat = s.st.toNat - k ∧
    (tick^[k]) s = { s with dt := ((tick^[k]) s).dt, st := ((tick^[k]) s).st }

/-- KEYS writes all sixteen key states and nothing else, DRAW_ACK clears `DIRTY` and nothing else (R248; the transactions
are D1 and D13, log 14). -/
def Obligations.KeysAndDrawAckWriteTheirOwn : Prop :=
  ∀ (s : State) (bits : BitVec 16),
    (∀ k : Fin 16, (keys bits s).keyDown k = bits.getLsbD k.val) ∧
    keys bits s = { s with key := (keys bits s).key } ∧ drawAck s = { s with dirty := false }

/-- Before the first RESET_LOAD every other transaction is refused (R39, R253; D22, log 15). -/
def Obligations.NothingBeforeTheFirstResetLoad : Prop :=
  ∀ a : Transaction, (∀ rom, a ≠ .resetLoad rom) → transact a none = (none, .refused)

/-- While halted, every transaction but RESET_LOAD leaves the latch set, a STEP changes nothing at all, and TICK, KEYS and
DRAW_ACK act as ever (R234, R253; D16, log 13). -/
def Obligations.OnlyResetLoadClearsTheLatch : Prop :=
  ∀ (a : Transaction) (s : State), s.fault ≠ .noFault →
    ((∀ rom, a ≠ .resetLoad rom) → (transactLoaded a s).1.fault = s.fault) ∧
    transactLoaded .step s = (s, .stepped .halted) ∧
    (transactLoaded .tick s).1 = tick s ∧ (transactLoaded .drawAck s).1 = drawAck s ∧
    ∀ bits, (transactLoaded (.keys bits) s).1 = keys bits s

/-- What STEP, TICK, KEYS and DRAW_ACK do on a loaded engine in every condition, running, awaiting a key or halted (R253, R247):
STEP takes the state to the one `step` answers and reports its outcome, and the other three take it to what `tick`, `keys` and
`drawAck` give. Of a running engine whose `PC` points at an instruction of the table, a STEP that does not fault reports that
it waits exactly where `W` is set after it, and else that it completed with no event (R108, R11; outcomes are outputs: D17,
log 4; `W` is D18, log 13). -/
def Obligations.TransactionsActInEveryCondition : Prop :=
  ∀ s : State,
    (∃ t, step s = .next t ∧ transact .step (some s) = (some t, .stepped (stepReport s t)) ∧
      (s.fault = .noFault → (∃ i, instrAtPC s = some i) → t.fault = .noFault →
        stepReport s t = if t.w = true then .waiting else .completed none)) ∧
    transact .tick (some s) = (some (tick s), .done) ∧
    (∀ bits, transact (.keys bits) (some s) = (some (keys bits s), .done)) ∧
    transact .drawAck (some s) = (some (drawAck s), .done)

/-! ### What no instruction does -/

/-- The boundary between the program and the host (R31, R241): no STEP changes a key state, clears `DIRTY`, or clears the
latch (`DIRTY` and the latch are D13 and D16, log 13). -/
def Obligations.ProgramCannotTouchTheHostsState : Prop :=
  ∀ s t : State, step s = .next t →
    (∀ k : Fin 16, t.keyDown k = s.keyDown k) ∧ (s.dirty = true → t.dirty = true) ∧
    (s.fault ≠ .noFault → t.fault = s.fault)

/-- The writers of each piece of state are those R20 and R40 list: memory by `LD B,Vx` and `LD [I],Vx`; `I` by `LD I,nnn`,
`ADD I,Vx`, `LD F,Vx`; the stack by `CALL`, `SP` by `CALL` and `RET`; the timers by their own `LD`; the screen by `CLS` and
`DRW`; the model's count by `RND` (log 2). -/
def Obligations.WritersAreTheListedForms : Prop :=
  ∀ (i : Instr) (s t : State), exec i s = .next t →
    ((∃ a, t.mem.read a ≠ s.mem.read a) → ∃ x, i = .ldBVx x ∨ i = .ldIVx x) ∧
    (t.i ≠ s.i → (∃ nnn, i = .ldINnn nnn) ∨ ∃ x, i = .addIVx x ∨ i = .ldFVx x) ∧
    ((∃ k, t.slot k ≠ s.slot k) → ∃ nnn, i = .call nnn) ∧
    (t.sp ≠ s.sp → i = .ret ∨ ∃ nnn, i = .call nnn) ∧
    (t.dt ≠ s.dt → ∃ x, i = .ldDTVx x) ∧ (t.st ≠ s.st → ∃ x, i = .ldSTVx x) ∧
    ((∃ y x, t.pixel y x ≠ s.pixel y x) ∨ t.dirty ≠ s.dirty → i = .cls ∨ ∃ x y n, i = .drw x y n) ∧
    (t.draws ≠ s.draws → ∃ x nn, i = .rnd x nn)

/-- A V register changes only as a named destination of the form, or as `VF` in the six forms that write it as a side
effect (R22, R40). -/
def Obligations.RegistersChangeOnlyAsListed : Prop :=
  ∀ (i : Instr) (s t : State) (r : Reg), exec i s = .next t → t.reg r ≠ s.reg r →
    r ∈ namedDestinations i ∨ (r = VF ∧ writesFlag i = true)

/-- No program can read `ST`, `DIRTY` or `W` (R30, R32, R241: "or read `ST`"): a STEP from a state with other values of the
three answers the same state but for the three (`DIRTY` and `W` are D13 and D18, log 13). -/
def Obligations.StatusOutputsAreNeverRead : Prop :=
  ∀ (s : State) (st : Byte) (dirty w : Bool), ∃ t, step s = .next t ∧
    ∃ (st' : Byte) (dirty' w' : Bool),
      step { s with st := st, dirty := dirty, w := w } = .next { t with st := st', dirty := dirty', w := w' }

/-! ### Control flow -/

/-- The four compares skip the next instruction when their condition holds, else go on, and change nothing else (R124 to
R127). -/
def Obligations.ComparesSkip : Prop :=
  (∀ (x : Reg) (nn : Byte) (s : State), ∃ t, exec (.seVxNn x nn) s = .next t ∧
    (t.pc = if s.reg x = nn then s.pc + 4 else s.pc + 2) ∧ OnlyRegs [] s t) ∧
  (∀ (x : Reg) (nn : Byte) (s : State), ∃ t, exec (.sneVxNn x nn) s = .next t ∧
    (t.pc = if s.reg x = nn then s.pc + 2 else s.pc + 4) ∧ OnlyRegs [] s t) ∧
  (∀ (x y : Reg) (s : State), ∃ t, exec (.seVxVy x y) s = .next t ∧
    (t.pc = if s.reg x = s.reg y then s.pc + 4 else s.pc + 2) ∧ OnlyRegs [] s t) ∧
  (∀ (x y : Reg) (s : State), ∃ t, exec (.sneVxVy x y) s = .next t ∧
    (t.pc = if s.reg x = s.reg y then s.pc + 2 else s.pc + 4) ∧ OnlyRegs [] s t)

/-- `JP nnn` and `JP V0,nnn` set `PC` to `nnn` and to `nnn + V0`, which is not cut to 12 bits, and change nothing else; no
target is checked (R122, R128). A `JP` to its own address changes no state but `W`. -/
def Obligations.JumpsSetPC : Prop :=
  (∀ (nnn : Addr) (s : State), ∃ t, exec (.jp nnn) s = .next t ∧ t.pc.toNat = nnn.toNat ∧ OnlyRegs [] s t ∧
    (nnn.toNat = s.pc.toNat → t = { s with w := t.w })) ∧
  (∀ (nnn : Addr) (s : State), ∃ t, exec (.jpV0 nnn) s = .next t ∧
    t.pc.toNat = nnn.toNat + (s.reg 0).toNat ∧ OnlyRegs [] s t)

/-- `CALL nnn` with room pushes `PC + 2` in slot `SP`, raises `SP` by one and jumps, leaving every other slot; with
`SP = 16` it faults with `StackOverflow` and nothing changes (R123; the fault is D5, log 11). -/
def Obligations.CallPushes : Prop :=
  ∀ (nnn : Addr) (s : State),
    (s.sp.val < 16 → ∃ t, exec (.call nnn) s = .next t ∧ t.pc.toNat = nnn.toNat ∧ t.sp.val = s.sp.val + 1 ∧
      (∀ k : Fin 16, t.slot k = if k.val = s.sp.val then s.pc + 2 else s.slot k) ∧ OnlyStack s t) ∧
    (s.sp.val = 16 → FaultsWith .stackOverflow s (exec (.call nnn) s))

/-- `RET` with an address on the stack lowers `SP` by one and sets `PC` to the slot at the new `SP`, which keeps its value;
with `SP = 0` it faults with `StackUnderflow` and nothing changes (R121, R26; the fault is D5, log 11). -/
def Obligations.RetPops : Prop :=
  ∀ s : State,
    (∀ k : Fin 16, s.sp.val = k.val + 1 → ∃ t, exec .ret s = .next t ∧ t.pc = s.slot k ∧ t.sp.val = k.val ∧
      (∀ j : Fin 16, t.slot j = s.slot j) ∧ OnlyStack s t) ∧
    (s.sp.val = 0 → FaultsWith .stackUnderflow s (exec .ret s))

/-- A `RET` in any later state whose stack is the one a `CALL` left returns to the instruction after the `CALL`, with
`SP` as it was before it (R121, R123: "control returns to the instruction after the `CALL`"). -/
def Obligations.RetReturnsAfterTheCall : Prop :=
  ∀ (nnn : Addr) (s t u : State), s.sp.val < 16 → exec (.call nnn) s = .next t → SameStack t u →
    ∃ r, exec .ret u = .next r ∧ r.pc = s.pc + 2 ∧ r.sp = s.sp

/-- A state that ends well stays: at a jump to itself a STEP changes nothing but `W`, and the state still ends well (R284;
the definition is D26, log 19). -/
def Obligations.SelfJumpIsTheEnd : Prop :=
  ∀ s : State, EndsWell s → ∃ t, step s = .next t ∧ t = { s with w := false } ∧ EndsWell t

/-! ### Registers and arithmetic -/

/-- `LD Vx,nn`, `ADD Vx,nn` and `LD Vx,Vy`: the result mod 256 in `V[x]`, no flag, nothing else (R141, R142, R143). -/
def Obligations.LoadsAndByteAdd : Prop :=
  (∀ (x : Reg) (nn : Byte) (s : State), ∃ t, exec (.ldVxNn x nn) s = .next t ∧ t.reg x = nn ∧ t.pc = s.pc + 2 ∧
    OnlyRegs [x] s t) ∧
  (∀ (x : Reg) (nn : Byte) (s : State), ∃ t, exec (.addVxNn x nn) s = .next t ∧
    (t.reg x).toNat = ((s.reg x).toNat + nn.toNat) % 256 ∧ t.pc = s.pc + 2 ∧ OnlyRegs [x] s t) ∧
  (∀ (x y : Reg) (s : State), ∃ t, exec (.ldVxVy x y) s = .next t ∧ t.reg x = s.reg y ∧ t.pc = s.pc + 2 ∧
    OnlyRegs [x] s t)

/-- `OR`, `AND`, `XOR`: bit by bit, with `VF` untouched unless it is the destination (R144, R145, R146). -/
def Obligations.BitwiseForms : Prop :=
  (∀ (x y : Reg) (s : State), ∃ t, exec (.orVxVy x y) s = .next t ∧
    (∀ b < 8, (t.reg x).getLsbD b = ((s.reg x).getLsbD b || (s.reg y).getLsbD b)) ∧ t.pc = s.pc + 2 ∧
    OnlyRegs [x] s t) ∧
  (∀ (x y : Reg) (s : State), ∃ t, exec (.andVxVy x y) s = .next t ∧
    (∀ b < 8, (t.reg x).getLsbD b = ((s.reg x).getLsbD b && (s.reg y).getLsbD b)) ∧ t.pc = s.pc + 2 ∧
    OnlyRegs [x] s t) ∧
  (∀ (x y : Reg) (s : State), ∃ t, exec (.xorVxVy x y) s = .next t ∧
    (∀ b < 8, (t.reg x).getLsbD b = ((s.reg x).getLsbD b ^^ (s.reg y).getLsbD b)) ∧ t.pc = s.pc + 2 ∧
    OnlyRegs [x] s t)

/-- `ADD Vx,Vy`: `V[x]` is the sum mod 256; `VF` is 1 exactly when the sum exceeds 255, else 0, unless `VF` is the
destination, which then holds the sum (R147, R140; for `x` or `y` 0xF the order is D4, log 9). -/
def Obligations.AddCarries : Prop :=
  ∀ (x y : Reg) (s : State), ∃ t, exec (.addVxVy x y) s = .next t ∧
    (t.reg x).toNat = ((s.reg x).toNat + (s.reg y).toNat) % 256 ∧
    (x ≠ VF → t.reg VF = if 255 < (s.reg x).toNat + (s.reg y).toNat then 1 else 0) ∧
    t.pc = s.pc + 2 ∧ OnlyRegs [x, VF] s t

/-- `SUB` and `SUBN`: the difference mod 256, taken either way; `VF` is 1 exactly when the minuend is strictly greater, so
0 at equality, unless `VF` is the destination (R148, R150, R140, C5; for `x` or `y` 0xF the order is D4, log 9). -/
def Obligations.SubtractsBothWays : Prop :=
  (∀ (x y : Reg) (s : State), ∃ t, exec (.subVxVy x y) s = .next t ∧
    ((t.reg x).toNat : Int) = ((s.reg x).toNat - (s.reg y).toNat : Int) % 256 ∧
    (x ≠ VF → t.reg VF = if (s.reg y).toNat < (s.reg x).toNat then 1 else 0) ∧
    t.pc = s.pc + 2 ∧ OnlyRegs [x, VF] s t) ∧
  (∀ (x y : Reg) (s : State), ∃ t, exec (.subnVxVy x y) s = .next t ∧
    ((t.reg x).toNat : Int) = ((s.reg y).toNat - (s.reg x).toNat : Int) % 256 ∧
    (x ≠ VF → t.reg VF = if (s.reg x).toNat < (s.reg y).toNat then 1 else 0) ∧
    t.pc = s.pc + 2 ∧ OnlyRegs [x, VF] s t)

/-- `SHR` and `SHL`: `V[x]` shifts in place by one bit, whatever `y` is; `VF` is the bit pushed out, unless `VF` is the
destination (R149, R151, R140; for `x = 0xF` the order is D4, log 9; the ignored `y` is D3, log 8, and
that the term carries it is log 16). -/
def Obligations.ShiftsByOneInPlace : Prop :=
  (∀ (x y : Reg) (s : State), ∃ t, exec (.shrVx x y) s = .next t ∧ (t.reg x).toNat = (s.reg x).toNat / 2 ∧
    (x ≠ VF → (t.reg VF).toNat = (s.reg x).toNat % 2) ∧ t.pc = s.pc + 2 ∧ OnlyRegs [x, VF] s t) ∧
  (∀ (x y : Reg) (s : State), ∃ t, exec (.shlVx x y) s = .next t ∧
    (t.reg x).toNat = (s.reg x).toNat * 2 % 256 ∧
    (x ≠ VF → (t.reg VF).toNat = (s.reg x).toNat / 128) ∧ t.pc = s.pc + 2 ∧ OnlyRegs [x, VF] s t)

/-- `RND Vx,nn`: `V[x]` is the next random byte under the mask, so every bit outside the mask is 0, and one more byte has
been taken; nothing is said of the byte, a free value (R153; D12, log 1, log 2). -/
def Obligations.RandomUnderTheMask : Prop :=
  ∀ (x : Reg) (nn : Byte) (s : State), ∃ t, exec (.rnd x nn) s = .next t ∧
    t.reg x = Config.randomByte s.draws &&& nn ∧ t.reg x &&& ~~~nn = 0 ∧ t.draws = s.draws + 1 ∧
    t.pc = s.pc + 2 ∧ SameRegsBut [x] s t ∧ t.i = s.i ∧ SameMem s t ∧ SameStack s t ∧ SameTimers s t ∧
    SameScreen s t ∧ (∀ k, t.keyDown k = s.keyDown k) ∧ t.fault = s.fault

/-! ### Index and memory -/

/-- `LD I,nnn`, `ADD I,Vx` (mod 65536, no flag) and `LD F,Vx` (the whole byte times 5) set `I` and nothing else (R170,
R171, R172). -/
def Obligations.IndexLoads : Prop :=
  (∀ (nnn : Addr) (s : State), ∃ t, exec (.ldINnn nnn) s = .next t ∧ t.i.toNat = nnn.toNat ∧ t.pc = s.pc + 2 ∧
    OnlyIndex s t) ∧
  (∀ (x : Reg) (s : State), ∃ t, exec (.addIVx x) s = .next t ∧
    t.i.toNat = (s.i.toNat + (s.reg x).toNat) % 65536 ∧ t.pc = s.pc + 2 ∧ OnlyIndex s t) ∧
  (∀ (x : Reg) (s : State), ∃ t, exec (.ldFVx x) s = .next t ∧ t.i.toNat = (s.reg x).toNat * 5 ∧
    t.pc = s.pc + 2 ∧ OnlyIndex s t)

/-- `LD B,Vx` stores hundreds, tens and ones at `I`, `I+1`, `I+2` and changes nothing else; above 0xFFF it faults and
writes nothing (R173, R174; the fault is D8 and D21, log 11). -/
def Obligations.DecimalStore : Prop :=
  ∀ (x : Reg) (s : State),
    (s.i.toNat + 2 ≤ 0xFFF → ∃ t, exec (.ldBVx x) s = .next t ∧
      (t.mem.read (base s)).toNat = (s.reg x).toNat / 100 ∧
      (t.mem.read (base s + 1)).toNat = (s.reg x).toNat / 10 % 10 ∧
      (t.mem.read (base s + 2)).toNat = (s.reg x).toNat % 10 ∧
      t.pc = s.pc + 2 ∧ OnlyBytes (base s) 3 s t) ∧
    (0xFFF < s.i.toNat + 2 → FaultsWith .memOutOfBounds s (exec (.ldBVx x) s))

/-- `LD [I],Vx` stores `V0..Vx`, `V[k]` at `I + k`, and changes nothing else, `I` included; above 0xFFF it faults and
writes nothing (R175, R174; the fault is D8 and D21, log 11). -/
def Obligations.RegisterStore : Prop :=
  ∀ (x : Reg) (s : State),
    (s.i.toNat + x.val ≤ 0xFFF → ∃ t, exec (.ldIVx x) s = .next t ∧
      (∀ k : Reg, k ≤ x → t.mem.read (base s + k.val) = s.reg k) ∧
      t.pc = s.pc + 2 ∧ OnlyBytes (base s) (x.val + 1) s t) ∧
    (0xFFF < s.i.toNat + x.val → FaultsWith .memOutOfBounds s (exec (.ldIVx x) s))

/-- `LD Vx,[I]` loads `V0..Vx`, `V[k]` from `I + k`, and changes nothing else, `I` included; above 0xFFF it faults and
loads nothing (R176, R174; the fault is D8 and D21, log 11). -/
def Obligations.RegisterLoad : Prop :=
  ∀ (x : Reg) (s : State),
    (s.i.toNat + x.val ≤ 0xFFF → ∃ t, exec (.ldVxI x) s = .next t ∧
      (∀ k : Reg, k ≤ x → t.reg k = s.mem.read (base s + k.val)) ∧ (∀ k : Reg, x < k → t.reg k = s.reg k) ∧
      t.pc = s.pc + 2 ∧ OnlyRegs (namedDestinations (.ldVxI x)) s t) ∧
    (0xFFF < s.i.toNat + x.val → FaultsWith .memOutOfBounds s (exec (.ldVxI x) s))

/-- Registers stored by `LD [I],Vx` come back by `LD Vx,[I]` in any later state with the same memory and `I`, whatever its
registers hold (R175, R176, R59; the bound is D8, log 11). -/
def Obligations.StoredRegistersLoadBack : Prop :=
  ∀ (x : Reg) (s t u : State), s.i.toNat + x.val ≤ 0xFFF → exec (.ldIVx x) s = .next t → SameMem t u → u.i = s.i →
    ∃ r, exec (.ldVxI x) u = .next r ∧ ∀ k : Reg, k ≤ x → r.reg k = s.reg k

/-- Stores are seen by later fetches at once (R62): after `LD [I],Vx` or `LD B,Vx`, any later state with the memory it left fetches
at `PC` the two bytes that are there now, the stored ones where `PC` or `PC + 1` lies in the stored range, and its STEP runs the
word they make, so that self-modified code runs as stored. (The bound of the stores is D8 and that of the fetch D6, log 11;
a halted engine runs nothing, D16, log 13.) -/
def Obligations.StoresAreFetched : Prop :=
  (∀ (x : Reg) (s t u : State), s.i.toNat + x.val ≤ 0xFFF → exec (.ldIVx x) s = .next t → SameMem t u →
    u.pc.toNat ≤ 4094 →
    RunsWord u (wordOfBytes (registerStoreByte x s u.pc.toNat) (registerStoreByte x s (u.pc.toNat + 1)))) ∧
  (∀ (x : Reg) (s t u : State), s.i.toNat + 2 ≤ 0xFFF → exec (.ldBVx x) s = .next t → SameMem t u →
    u.pc.toNat ≤ 4094 →
    RunsWord u (wordOfBytes (decimalStoreByte x s u.pc.toNat) (decimalStoreByte x s (u.pc.toNat + 1))))

/-- Two memories in canonical form that read alike at every address are the same data (the model's own form, log 6). -/
def Obligations.CanonicalMemoriesAreEqual : Prop :=
  ∀ m m' : Memory, m.wf = true → m'.wf = true → (∀ a, m.read a = m'.read a) → m = m'

/-! ### Display -/

/-- `CLS`: every pixel 0, `DIRTY` set, nothing else (R190). -/
def Obligations.ClsClears : Prop :=
  ∀ s : State, ∃ t, exec .cls s = .next t ∧ (∀ y x, t.pixel y x = false) ∧ t.dirty = true ∧ t.pc = s.pc + 2 ∧
    OnlyScreen [] s t

/-- `DRW Vx,Vy,n`: with its sprite inside memory, or with `n = 0`, it flips exactly the pixels the sprite lights, round both
edges; `VF` is 1 exactly when one of them was 1, else 0; `DIRTY` is set; nothing else changes. With a sprite byte above 0xFFF
it faults and changes nothing (R191, R174; the fault is D8 and D21, log 11; for `x` or `y` 0xF the origin is the old `VF`,
D4, log 9). -/
def Obligations.DrwPlots : Prop :=
  ∀ (x y : Reg) (n : Nibble) (s : State),
    (n.toNat = 0 ∨ s.i.toNat + (n.toNat - 1) ≤ 0xFFF → ∃ t, exec (.drw x y n) s = .next t ∧
      (∀ py px, t.pixel py px = (s.pixel py px ^^ spriteLights s x y n.toNat py px)) ∧
      ((∃ py px, spriteLights s x y n.toNat py px = true ∧ s.pixel py px = true) → t.reg VF = 1) ∧
      ((∀ py px, spriteLights s x y n.toNat py px = true → s.pixel py px = false) → t.reg VF = 0) ∧
      t.dirty = true ∧ t.pc = s.pc + 2 ∧ OnlyScreen [VF] s t) ∧
    (0 < n.toNat ∧ 0xFFF < s.i.toNat + (n.toNat - 1) → FaultsWith .memOutOfBounds s (exec (.drw x y n) s))

/-- Drawing the same sprite twice at the same place restores every pixel, and the second drawing collides exactly when some
lit pixel was 0 before the first (R192 (1), for `x` and `y` other than 0xF; the bound is D8, log 11). -/
def Obligations.DrwTwiceRestores : Prop :=
  ∀ (x y : Reg) (n : Nibble) (s t u : State), x ≠ VF → y ≠ VF →
    (n.toNat = 0 ∨ s.i.toNat + (n.toNat - 1) ≤ 0xFFF) →
    exec (.drw x y n) s = .next t → exec (.drw x y n) t = .next u →
    (∀ py px, u.pixel py px = s.pixel py px) ∧
    (u.reg VF = 1 ↔ ∃ py px, spriteLights s x y n.toNat py px = true ∧ s.pixel py px = false)

/-! ### Keys and timers -/

/-- `SKP` and `SKNP` with `V[x]` at most 15 skip on the state of the key that value names and change nothing else; with
`V[x]` above 15 they fault and change nothing (R210, R211; the fault is D10, log 11). -/
def Obligations.KeySkips : Prop :=
  ∀ (x : Reg) (s : State),
    (∀ k : Fin 16, (s.reg x).toNat = k.val →
      (∃ t, exec (.skp x) s = .next t ∧ (t.pc = if s.keyDown k = true then s.pc + 4 else s.pc + 2) ∧
        OnlyRegs [] s t) ∧
      (∃ t, exec (.sknp x) s = .next t ∧ (t.pc = if s.keyDown k = true then s.pc + 2 else s.pc + 4) ∧
        OnlyRegs [] s t)) ∧
    (15 < (s.reg x).toNat →
      FaultsWith .keyIndexOutOfRange s (exec (.skp x) s) ∧ FaultsWith .keyIndexOutOfRange s (exec (.sknp x) s))

/-- `LD Vx,K`: with a key pressed and none below it, its number goes to `V[x]` and `PC` advances, in the same STEP; with no
key pressed nothing changes but `W`, which is set (R212; the lowest key and the same STEP are D11, log 10; `W` is D18, log 13). -/
def Obligations.KeyWait : Prop :=
  ∀ (x : Reg) (s : State),
    (∀ k : Fin 16, s.keyDown k = true → (∀ j : Fin 16, j < k → s.keyDown j = false) →
      ∃ t, exec (.ldVxK x) s = .next t ∧ (t.reg x).toNat = k.val ∧ t.pc = s.pc + 2 ∧ t.w = false ∧
        OnlyRegs [x] s t) ∧
    ((∀ k : Fin 16, s.keyDown k = false) → exec (.ldVxK x) s = .next { s with w := true })

/-- The wait is spread over STEPs: while no key is pressed, any number of STEPs at an `LD Vx,K` leaves everything but `W` as
it was, `PC` and `V[x]` included, and each reports that it waits (R212 (a), (b), R32; `W` is D18, log 13). -/
def Obligations.WaitingLasts : Prop :=
  ∀ (x : Reg) (s : State), s.fault = .noFault → instrAtPC s = some (.ldVxK x) →
    (∀ k : Fin 16, s.keyDown k = false) →
    (∀ n : Nat, Host.Core.run Sys2Proof.core (n + 1) s = .next { s with w := true }) ∧
    stepReport s { s with w := true } = .waiting

/-- The timer moves: `LD Vx,DT` copies `DT` to `V[x]`, `LD DT,Vx` and `LD ST,Vx` copy `V[x]` to their timer, and nothing
else changes, `DT` being unchanged by the read (R213, R214, R215). -/
def Obligations.TimerMoves : Prop :=
  (∀ (x : Reg) (s : State), ∃ t, exec (.ldVxDT x) s = .next t ∧ t.reg x = s.dt ∧ t.pc = s.pc + 2 ∧
    OnlyRegs [x] s t) ∧
  (∀ (x : Reg) (s : State), ∃ t, exec (.ldDTVx x) s = .next t ∧ t.dt = s.reg x ∧ t.st = s.st ∧ t.pc = s.pc + 2 ∧
    OnlyTimers s t) ∧
  (∀ (x : Reg) (s : State), ∃ t, exec (.ldSTVx x) s = .next t ∧ t.st = s.reg x ∧ t.dt = s.dt ∧ t.pc = s.pc + 2 ∧
    OnlyTimers s t)

/-! ### The host's reading of a table word -/

/-- A table word placed where the next step fetches runs there: from any state, the step executes what the decoder reads
from the word, on the state with the word placed (the placement is the model's own, log 5). -/
def Obligations.PlacedWordRuns : Prop :=
  ∀ (s : State) (nbits w : Nat) (i : Instr), decodeTableWord nbits w = some i →
    step (s.withFetchWord nbits w) = exec i (s.withFetchWord nbits w) ∧
    (s.fault = .noFault → s.pc.toNat ≤ 4094 → s.withFetchWord nbits w = { s with mem := (s.withFetchWord nbits w).mem })
end

