-- ==== Sys2Proof/Laws/Display.lean ====
section
/-! SUPPORT. The sprite loop in closed form (44_display.md R191, corner case (e): no pixel is visited twice): which
pixels a drawing flips, and when it reports a collision. -/

namespace Sys2Proof.Machine

/-- How many columns right of `ox`, round the edge, column `x` lies. -/
def colFrom (ox : Nat) (x : Fin 64) : Nat := (x.val + 64 - ox % 64) % 64

/-- How many rows below `row`, round the edge, row `y` lies. -/
def rowFrom (row : Nat) (y : Fin 32) : Nat := (y.val + 32 - row % 32) % 32

theorem ofNat_col_eq_iff (ox col : Nat) (h : col < 64) (x : Fin 64) : Fin.ofNat 64 (ox + col) = x ↔ colFrom ox x = col := by
  have hx := x.isLt
  simp only [Fin.ext_iff, Fin.ofNat, colFrom]
  omega

theorem ofNat_row_eq_iff (row : Nat) (y : Fin 32) : Fin.ofNat 32 row = y ↔ rowFrom row y = 0 := by
  have hy := y.isLt
  simp only [Fin.ext_iff, Fin.ofNat, rowFrom]
  omega

theorem rowFrom_succ (row : Nat) (y : Fin 32) :
    rowFrom (row + 1) y = if rowFrom row y = 0 then 31 else rowFrom row y - 1 := by
  have hy := y.isLt
  unfold rowFrom
  by_cases h : (y.val + 32 - row % 32) % 32 = 0
  · rw [if_pos h]; omega
  · rw [if_neg h]; omega

/-! ### One pixel, one bit -/

theorem plotPixel_pixel (y y' : Fin 32) (x x' : Fin 64) (p : Plot) :
    (plotPixel y x p).1[y'][x'] = (p.1[y'][x'] ^^ (decide (y = y') && decide (x = x'))) := by
  by_cases hy : y = y'
  · subst hy
    by_cases hx : x = x'
    · subst hx; simp [plotPixel]
    · have : x.val ≠ x'.val := fun h => hx (Fin.ext h)
      simp [plotPixel, hx, Vector.getElem_set_ne, this]
  · have : y.val ≠ y'.val := fun h => hy (Fin.ext h)
    simp [plotPixel, hy, Vector.getElem_set_ne, this]

theorem plotBit_pixel (ox row : Nat) (b : Byte) (p : Plot) (col : Nat) (h : col < 64) (y : Fin 32) (x : Fin 64) :
    (plotBit ox row b p col).1[y][x] =
      (p.1[y][x] ^^ (decide (rowFrom row y = 0) && decide (colFrom ox x = col) && b.getLsbD (7 - col))) := by
  unfold plotBit
  by_cases hb : b.getLsbD (7 - col) = true
  · rw [if_pos hb, plotPixel_pixel]
    simp only [hb, ofNat_row_eq_iff, ofNat_col_eq_iff ox col h, Bool.and_true]
  · rw [if_neg hb]
    simp [hb]

theorem plotBit_hit (ox row : Nat) (b : Byte) (p : Plot) (col : Nat) :
    (plotBit ox row b p col).2 =
      (p.2 || (b.getLsbD (7 - col) && p.1[Fin.ofNat 32 row][Fin.ofNat 64 (ox + col)])) := by
  unfold plotBit
  by_cases hb : b.getLsbD (7 - col) = true
  · simp [hb, plotPixel]
  · simp [hb]

/-! ### One row -/

theorem foldl_plotBit_pixel (ox row : Nat) (b : Byte) (cols : List Nat) : ∀ (p : Plot), cols.Nodup → (∀ c ∈ cols, c < 64) →
    ∀ (y : Fin 32) (x : Fin 64), (cols.foldl (plotBit ox row b) p).1[y][x] =
      (p.1[y][x] ^^ (decide (rowFrom row y = 0) && decide (colFrom ox x ∈ cols) && b.getLsbD (7 - colFrom ox x))) := by
  induction cols with
  | nil => intro p _ _ y x; simp
  | cons c cols ih =>
    intro p hnd hlt y x
    have hc := hlt c (by simp)
    rw [List.foldl_cons, ih _ (List.nodup_cons.mp hnd).2 (fun d hd => hlt d (by simp [hd])),
      plotBit_pixel _ _ _ _ _ hc]
    by_cases he : colFrom ox x = c
    · have hnot : c ∉ cols := (List.nodup_cons.mp hnd).1
      simp [he, hnot]
    · simp [he]

theorem foldl_plotBit_hit (ox row : Nat) (b : Byte) (cols : List Nat) : ∀ (p : Plot), cols.Nodup → (∀ c ∈ cols, c < 64) →
    ((cols.foldl (plotBit ox row b) p).2 = true ↔
      p.2 = true ∨ ∃ c ∈ cols, b.getLsbD (7 - c) = true ∧
        p.1[Fin.ofNat 32 row][Fin.ofNat 64 (ox + c)] = true) := by
  induction cols with
  | nil => intro p _ _; simp
  | cons c cols ih =>
    intro p hnd hlt
    have hc := hlt c (by simp)
    obtain ⟨hnot, hnd'⟩ := List.nodup_cons.mp hnd
    have hlt' : ∀ d ∈ cols, d < 64 := fun d hd => hlt d (by simp [hd])
    have hkeep : ∀ d ∈ cols, (plotBit ox row b p c).1[Fin.ofNat 32 row][Fin.ofNat 64 (ox + d)] =
        p.1[Fin.ofNat 32 row][Fin.ofNat 64 (ox + d)] := by
      intro d hd
      rw [plotBit_pixel _ _ _ _ _ hc]
      have hd64 := hlt' d hd
      have hcd : colFrom ox (Fin.ofNat 64 (ox + d)) = d := (ofNat_col_eq_iff ox d hd64 _).mp rfl
      have hne : d ≠ c := fun h => hnot (h ▸ hd)
      simp only [hcd, hne, decide_false, Bool.and_false, Bool.false_and, Bool.xor_false]
    rw [List.foldl_cons, ih _ hnd' hlt', plotBit_hit]
    constructor
    · rintro (h | ⟨d, hd, hb, hp⟩)
      · simp only [Bool.or_eq_true, Bool.and_eq_true] at h
        rcases h with h | h
        · exact .inl h
        · exact .inr ⟨c, by simp, h⟩
      · exact .inr ⟨d, by simp [hd], hb, by rwa [hkeep d hd] at hp⟩
    · rintro (h | ⟨d, hd, hb, hp⟩)
      · exact .inl (by simp [h])
      · rcases List.mem_cons.mp hd with rfl | hd
        · exact .inl (by simp only [hb, hp, Bool.and_true, Bool.or_true])
        · exact .inr ⟨d, hd, hb, by rwa [hkeep d hd]⟩

/-- One sprite row flips exactly its set bits' pixels. -/
theorem plotRow_pixel (ox row : Nat) (b : Byte) (p : Plot) (y : Fin 32) (x : Fin 64) :
    (plotRow ox row b p).1[y][x] =
      (p.1[y][x] ^^ (decide (rowFrom row y = 0) && decide (colFrom ox x < 8) && b.getLsbD (7 - colFrom ox x))) := by
  unfold plotRow
  rw [foldl_plotBit_pixel _ _ _ _ _ List.nodup_range (fun c hc => by have := List.mem_range.mp hc; omega)]
  simp

/-- One sprite row collides exactly when one of its set bits' pixels was 1. -/
theorem plotRow_hit (ox row : Nat) (b : Byte) (p : Plot) :
    (plotRow ox row b p).2 = true ↔ p.2 = true ∨ ∃ (y : Fin 32) (x : Fin 64),
      rowFrom row y = 0 ∧ colFrom ox x < 8 ∧ b.getLsbD (7 - colFrom ox x) = true ∧ p.1[y][x] = true := by
  unfold plotRow
  rw [foldl_plotBit_hit _ _ _ _ _ List.nodup_range (fun c hc => by have := List.mem_range.mp hc; omega)]
  constructor
  · rintro (h | ⟨c, hc, hb, hp⟩)
    · exact .inl h
    · have h8 : c < 8 := List.mem_range.mp hc
      have hcol : colFrom ox (Fin.ofNat 64 (ox + c)) = c := (ofNat_col_eq_iff ox c (by omega) _).mp rfl
      exact .inr ⟨_, _, (ofNat_row_eq_iff row _).mp rfl, by omega, by rw [hcol]; exact hb, hp⟩
  · rintro (h | ⟨y, x, hy, hx, hb, hp⟩)
    · exact .inl h
    · refine .inr ⟨colFrom ox x, List.mem_range.mpr hx, hb, ?_⟩
      simp only [(ofNat_row_eq_iff row y).mpr hy, (ofNat_col_eq_iff ox (colFrom ox x) (by omega) x).mpr rfl]
      exact hp

/-! ### All rows -/

/-- The sprite with rows `bs`, drawn from `(row, ox)` on, sets a bit at pixel `(y, x)`. -/
def spriteBit (ox row : Nat) (bs : List Byte) (y : Fin 32) (x : Fin 64) : Bool :=
  decide (rowFrom row y < bs.length) && decide (colFrom ox x < 8) &&
    (bs.getD (rowFrom row y) 0).getLsbD (7 - colFrom ox x)

theorem spriteBit_cons (ox row : Nat) (b : Byte) (bs : List Byte) (y : Fin 32) (x : Fin 64) :
    spriteBit ox row (b :: bs) y x =
      if rowFrom row y = 0 then decide (colFrom ox x < 8) && b.getLsbD (7 - colFrom ox x)
      else spriteBit ox (row + 1) bs y x := by
  unfold spriteBit
  rw [rowFrom_succ]
  by_cases h0 : rowFrom row y = 0
  · simp [h0]
  · obtain ⟨r, hr⟩ := Nat.exists_eq_succ_of_ne_zero h0
    simp [hr]

theorem spriteBit_next_row (ox row : Nat) (bs : List Byte) (h : bs.length < 32) (y : Fin 32) (x : Fin 64)
    (h0 : rowFrom row y = 0) : spriteBit ox (row + 1) bs y x = false := by
  unfold spriteBit
  rw [rowFrom_succ, if_pos h0, decide_eq_false (by omega)]
  rfl

/-- A sprite of at most 32 rows flips exactly the pixels its set bits lie on. -/
theorem plotRows_pixel (ox : Nat) (bs : List Byte) : ∀ (row : Nat) (p : Plot), bs.length ≤ 32 →
    ∀ (y : Fin 32) (x : Fin 64), (plotRows ox row bs p).1[y][x] = (p.1[y][x] ^^ spriteBit ox row bs y x) := by
  induction bs with
  | nil => intro row p _ y x; simp [plotRows, spriteBit]
  | cons b bs ih =>
    intro row p hlen y x
    have hlen' : bs.length < 32 := by simpa using hlen
    rw [plotRows, ih (row + 1) _ (by omega), plotRow_pixel, spriteBit_cons _ _ _ _]
    by_cases h0 : rowFrom row y = 0
    · simp [h0, spriteBit_next_row _ _ _ hlen' _ _ h0]
    · simp [h0]

/-- A sprite of at most 32 rows collides exactly when a pixel one of its set bits lies on was 1 before the drawing. -/
theorem plotRows_hit (ox : Nat) (bs : List Byte) : ∀ (row : Nat) (p : Plot), bs.length ≤ 32 →
    ((plotRows ox row bs p).2 = true ↔
      p.2 = true ∨ ∃ (y : Fin 32) (x : Fin 64), spriteBit ox row bs y x = true ∧ p.1[y][x] = true) := by
  induction bs with
  | nil => intro row p _; simp [plotRows, spriteBit]
  | cons b bs ih =>
    intro row p hlen
    have hlen' : bs.length < 32 := by simpa using hlen
    rw [plotRows, ih (row + 1) _ (by omega), plotRow_hit]
    constructor
    · rintro ((h | ⟨y, x, hy, hx, hb, hp⟩) | ⟨y, x, hs, hp⟩)
      · exact .inl h
      · exact .inr ⟨y, x, by simp [spriteBit_cons _ _ _ _, hy, hx, hb], hp⟩
      · have h0 : rowFrom row y ≠ 0 := fun h0 => by
          rw [spriteBit_next_row _ _ _ hlen' _ _ h0] at hs; exact Bool.noConfusion hs
        refine .inr ⟨y, x, by rw [spriteBit_cons _ _ _ _, if_neg h0]; exact hs, ?_⟩
        rw [plotRow_pixel] at hp
        simpa [h0] using hp
    · rintro (h | ⟨y, x, hs, hp⟩)
      · exact .inl (.inl h)
      · rw [spriteBit_cons _ _ _ _] at hs
        by_cases h0 : rowFrom row y = 0
        · rw [if_pos h0] at hs
          simp only [Bool.and_eq_true, decide_eq_true_eq] at hs
          exact .inl (.inr ⟨y, x, h0, hs.1, hs.2, hp⟩)
        · rw [if_neg h0] at hs
          refine .inr ⟨y, x, hs, ?_⟩
          rw [plotRow_pixel]
          simpa [h0] using hp

end Sys2Proof.Machine
end

