-- ==== Sys2Proof/Laws/Encoding.lean ====
section
/-! SUPPORT. The fields of a word as numbers, the fields of a word put together by a format, the bytes of a word, and
what the masks of the opcode map keep. Everything goes through the word as a number, so that omega closes it. -/

namespace Sys2Proof

/-! ### Fields as numbers (R9) -/

theorem fieldTop_toNat (op : Word) : (fieldTop op).toNat = op.toNat / 0x1000 := by
  have h := op.isLt
  simp only [fieldTop, BitVec.extractLsb'_toNat, Nat.shiftRight_eq_div_pow]
  omega

theorem fieldX_val (op : Word) : (fieldX op).val = op.toNat / 0x100 % 0x10 := by
  change (op.extractLsb' 8 4).toNat = _
  simp only [BitVec.extractLsb'_toNat, Nat.shiftRight_eq_div_pow]

theorem fieldY_val (op : Word) : (fieldY op).val = op.toNat / 0x10 % 0x10 := by
  change (op.extractLsb' 4 4).toNat = _
  simp only [BitVec.extractLsb'_toNat, Nat.shiftRight_eq_div_pow]

theorem fieldN_toNat (op : Word) : (fieldN op).toNat = op.toNat % 0x10 := by
  simp only [fieldN, BitVec.extractLsb'_toNat, Nat.shiftRight_zero]

theorem fieldNn_toNat (op : Word) : (fieldNn op).toNat = op.toNat % 0x100 := by
  simp only [fieldNn, BitVec.extractLsb'_toNat, Nat.shiftRight_zero]

theorem fieldNnn_toNat (op : Word) : (fieldNnn op).toNat = op.toNat % 0x1000 := by
  simp only [fieldNnn, BitVec.extractLsb'_toNat, Nat.shiftRight_zero]

/-! ### Fields of the formats (R71, R72) -/

section formats

variable (t n : Nibble) (x y : Reg) (nn : Byte) (nnn : Addr)

theorem formatA_toNat : (formatA t nnn).toNat = t.toNat * 0x1000 + nnn.toNat := by
  have := t.isLt; have := nnn.isLt
  simp only [formatA, BitVec.toNat_ofNat]; omega

theorem formatXB_toNat : (formatXB t x nn).toNat = t.toNat * 0x1000 + x.val * 0x100 + nn.toNat := by
  have := t.isLt; have := x.isLt; have := nn.isLt
  simp only [formatXB, BitVec.toNat_ofNat]; omega

theorem formatXYN_toNat :
    (formatXYN t x y n).toNat = t.toNat * 0x1000 + x.val * 0x100 + y.val * 0x10 + n.toNat := by
  have := t.isLt; have := x.isLt; have := y.isLt; have := n.isLt
  simp only [formatXYN, BitVec.toNat_ofNat]; omega

@[simp] theorem fieldTop_formatA : fieldTop (formatA t nnn) = t := by
  have := t.isLt; have := nnn.isLt
  apply BitVec.eq_of_toNat_eq; rw [fieldTop_toNat, formatA_toNat]; omega

@[simp] theorem fieldNnn_formatA : fieldNnn (formatA t nnn) = nnn := by
  have := t.isLt; have := nnn.isLt
  apply BitVec.eq_of_toNat_eq; rw [fieldNnn_toNat, formatA_toNat]; omega

@[simp] theorem fieldTop_formatXB : fieldTop (formatXB t x nn) = t := by
  have := t.isLt; have := x.isLt; have := nn.isLt
  apply BitVec.eq_of_toNat_eq; rw [fieldTop_toNat, formatXB_toNat]; omega

@[simp] theorem fieldX_formatXB : fieldX (formatXB t x nn) = x := by
  have := t.isLt; have := x.isLt; have := nn.isLt
  apply Fin.ext; rw [fieldX_val, formatXB_toNat]; omega

@[simp] theorem fieldNn_formatXB : fieldNn (formatXB t x nn) = nn := by
  have := t.isLt; have := x.isLt; have := nn.isLt
  apply BitVec.eq_of_toNat_eq; rw [fieldNn_toNat, formatXB_toNat]; omega

@[simp] theorem fieldTop_formatXYN : fieldTop (formatXYN t x y n) = t := by
  have := t.isLt; have := x.isLt; have := y.isLt; have := n.isLt
  apply BitVec.eq_of_toNat_eq; rw [fieldTop_toNat, formatXYN_toNat]; omega

@[simp] theorem fieldX_formatXYN : fieldX (formatXYN t x y n) = x := by
  have := t.isLt; have := x.isLt; have := y.isLt; have := n.isLt
  apply Fin.ext; rw [fieldX_val, formatXYN_toNat]; omega

@[simp] theorem fieldY_formatXYN : fieldY (formatXYN t x y n) = y := by
  have := t.isLt; have := x.isLt; have := y.isLt; have := n.isLt
  apply Fin.ext; rw [fieldY_val, formatXYN_toNat]; omega

@[simp] theorem fieldN_formatXYN : fieldN (formatXYN t x y n) = n := by
  have := t.isLt; have := x.isLt; have := y.isLt; have := n.isLt
  apply BitVec.eq_of_toNat_eq; rw [fieldN_toNat, formatXYN_toNat]; omega

end formats

/-! ### Every word is in every format -/

theorem eq_formatXYN (op : Word) : op = formatXYN (fieldTop op) (fieldX op) (fieldY op) (fieldN op) := by
  apply BitVec.eq_of_toNat_eq
  rw [formatXYN_toNat, fieldTop_toNat, fieldX_val, fieldY_val, fieldN_toNat]; omega

theorem eq_formatXB (op : Word) : op = formatXB (fieldTop op) (fieldX op) (fieldNn op) := by
  apply BitVec.eq_of_toNat_eq
  rw [formatXB_toNat, fieldTop_toNat, fieldX_val, fieldNn_toNat]; omega

theorem eq_formatA (op : Word) : op = formatA (fieldTop op) (fieldNnn op) := by
  apply BitVec.eq_of_toNat_eq
  rw [formatA_toNat, fieldTop_toNat, fieldNnn_toNat]; omega

/-! ### Bytes of a word (R54) -/

theorem wordOfBytes_toNat (hi lo : Byte) : (wordOfBytes hi lo).toNat = hi.toNat * 256 + lo.toNat := by
  have := hi.isLt; have := lo.isLt
  simp only [wordOfBytes, BitVec.toNat_ofNat]; omega

theorem highByte_toNat (op : Word) : (highByte op).toNat = op.toNat / 0x100 := by
  have h := op.isLt
  simp only [highByte, BitVec.extractLsb'_toNat, Nat.shiftRight_eq_div_pow]
  omega

theorem lowByte_toNat (op : Word) : (lowByte op).toNat = op.toNat % 0x100 := by
  simp only [lowByte, BitVec.extractLsb'_toNat, Nat.shiftRight_zero]

@[simp] theorem wordOfBytes_high_low (op : Word) : wordOfBytes (highByte op) (lowByte op) = op := by
  apply BitVec.eq_of_toNat_eq
  rw [wordOfBytes_toNat, highByte_toNat, lowByte_toNat]; omega

@[simp] theorem highByte_wordOfBytes (hi lo : Byte) : highByte (wordOfBytes hi lo) = hi := by
  have := lo.isLt
  apply BitVec.eq_of_toNat_eq; rw [highByte_toNat, wordOfBytes_toNat]; omega

@[simp] theorem lowByte_wordOfBytes (hi lo : Byte) : lowByte (wordOfBytes hi lo) = lo := by
  have := lo.isLt
  apply BitVec.eq_of_toNat_eq; rw [lowByte_toNat, wordOfBytes_toNat]; omega

/-- `decodeBytes` on two bytes and a rest: the named rejection or the decoded form. -/
theorem decodeBytes_cons (hi lo : Byte) (rest : List Byte) :
    decodeBytes (hi :: lo :: rest) =
      match decode (wordOfBytes hi lo) with
      | some i => .ok (i, rest)
      | none => .error (.unknownOpcode (wordOfBytes hi lo)) := rfl

theorem decodeTableWord_eq (nbits w : Nat) : decodeTableWord nbits w = decode (BitVec.ofNat 16 (w % 2 ^ nbits)) := by
  unfold decodeTableWord tableBytes
  rw [decodeBytes_cons, wordOfBytes_high_low]
  cases decode (BitVec.ofNat 16 (w % 2 ^ nbits)) <;> rfl

/-! ### What the masks of R76 keep: a word under a mask is a value exactly when the kept fields are -/

theorem and_F000_eq (op v : Word) (hv : v &&& 0xF000 = v) : op &&& 0xF000 = v ↔ fieldTop op = fieldTop v := by
  constructor
  · rintro rfl
    apply BitVec.eq_of_getLsbD_eq; intro i hi
    interval_cases i <;> simp [fieldTop]
  · intro h
    refine Eq.trans ?_ hv
    clear hv
    apply BitVec.eq_of_getLsbD_eq; intro i hi
    have hb : ∀ j, j < 4 → op.getLsbD (12 + j) = v.getLsbD (12 + j) := by
      intro j hj
      have := congrArg (·.getLsbD j) h
      simpa [fieldTop, hj] using this
    have h0 := hb 0 (by omega); have h1 := hb 1 (by omega); have h2 := hb 2 (by omega); have h3 := hb 3 (by omega)
    interval_cases i <;> simp_all

theorem and_F0FF_eq (op v : Word) (hv : v &&& 0xF0FF = v) :
    op &&& 0xF0FF = v ↔ fieldTop op = fieldTop v ∧ fieldNn op = fieldNn v := by
  constructor
  · rintro rfl
    constructor <;> (apply BitVec.eq_of_getLsbD_eq; intro i hi; interval_cases i <;> simp [fieldTop, fieldNn])
  · rintro ⟨h, h'⟩
    refine Eq.trans ?_ hv
    clear hv
    apply BitVec.eq_of_getLsbD_eq; intro i hi
    have hb : ∀ j, j < 4 → op.getLsbD (12 + j) = v.getLsbD (12 + j) := by
      intro j hj
      simpa [fieldTop, hj] using congrArg (·.getLsbD j) h
    have hc : ∀ j, j < 8 → op.getLsbD j = v.getLsbD j := by
      intro j hj
      simpa [fieldNn, hj] using congrArg (·.getLsbD j) h'
    have h0 := hb 0 (by omega); have h1 := hb 1 (by omega); have h2 := hb 2 (by omega); have h3 := hb 3 (by omega)
    by_cases h8 : i < 8
    · have := hc i h8; simp [this]
    · interval_cases i <;> simp_all

theorem and_F00F_eq (op v : Word) (hv : v &&& 0xF00F = v) :
    op &&& 0xF00F = v ↔ fieldTop op = fieldTop v ∧ fieldN op = fieldN v := by
  constructor
  · rintro rfl
    constructor <;> (apply BitVec.eq_of_getLsbD_eq; intro i hi; interval_cases i <;> simp [fieldTop, fieldN])
  · rintro ⟨h, h'⟩
    refine Eq.trans ?_ hv
    clear hv
    apply BitVec.eq_of_getLsbD_eq; intro i hi
    have hb : ∀ j, j < 4 → op.getLsbD (12 + j) = v.getLsbD (12 + j) := by
      intro j hj
      simpa [fieldTop, hj] using congrArg (·.getLsbD j) h
    have hc : ∀ j, j < 4 → op.getLsbD j = v.getLsbD j := by
      intro j hj
      simpa [fieldN, hj] using congrArg (·.getLsbD j) h'
    have h0 := hb 0 (by omega); have h1 := hb 1 (by omega); have h2 := hb 2 (by omega); have h3 := hb 3 (by omega)
    by_cases h4 : i < 4
    · have := hc i h4; simp [this]
    · interval_cases i <;> simp_all

/-! ### What is left of a word with its ignored bits cleared (R74) -/

theorem fieldX_eq_of_bits {op op' : Word} (h : ∀ i, i < 4 → op.getLsbD (8 + i) = op'.getLsbD (8 + i)) :
    fieldX op = fieldX op' := by
  have : op.extractLsb' 8 4 = op'.extractLsb' 8 4 := by
    apply BitVec.eq_of_getLsbD_eq; intro i hi; simp [hi, h i hi]
  simp only [fieldX, this]

theorem fieldY_eq_of_bits {op op' : Word} (h : ∀ i, i < 4 → op.getLsbD (4 + i) = op'.getLsbD (4 + i)) :
    fieldY op = fieldY op' := by
  have : op.extractLsb' 4 4 = op'.extractLsb' 4 4 := by
    apply BitVec.eq_of_getLsbD_eq; intro i hi; simp [hi, h i hi]
  simp only [fieldY, this]

theorem and_F0FF (op : Word) : op &&& 0xF0FF = formatXB (fieldTop op) 0 (fieldNn op) := by
  have hv : op &&& 0xF0FF &&& 0xF0FF = op &&& 0xF0FF := by rw [BitVec.and_assoc]; rfl
  obtain ⟨ht, hn⟩ := (and_F0FF_eq op (op &&& 0xF0FF) hv).mp rfl
  have hx : fieldX (op &&& 0xF0FF) = fieldX 0 := by
    apply fieldX_eq_of_bits; intro i hi; interval_cases i <;> simp
  conv_lhs => rw [eq_formatXB (op &&& 0xF0FF), ← ht, ← hn, hx]
  rfl

theorem and_FFF0 (op : Word) : op &&& 0xFFF0 = formatXYN (fieldTop op) (fieldX op) (fieldY op) 0 := by
  have ht : fieldTop (op &&& 0xFFF0) = fieldTop op := by
    apply BitVec.eq_of_getLsbD_eq; intro i hi; interval_cases i <;> simp [fieldTop]
  have hx : fieldX (op &&& 0xFFF0) = fieldX op := by
    apply fieldX_eq_of_bits; intro i hi; interval_cases i <;> simp
  have hy : fieldY (op &&& 0xFFF0) = fieldY op := by
    apply fieldY_eq_of_bits; intro i hi; interval_cases i <;> simp
  have hn : fieldN (op &&& 0xFFF0) = 0 := by
    apply BitVec.eq_of_getLsbD_eq; intro i hi; interval_cases i <;> simp [fieldN]
  conv_lhs => rw [eq_formatXYN (op &&& 0xFFF0), ht, hx, hy, hn]

end Sys2Proof
end

