-- ==== Sys2Proof/Laws/Memory.lean ====
section
/-! SUPPORT. What the memory operations can do, said once: a read after a write, and that every operation keeps the
canonical form. -/

namespace Sys2Proof.Machine

/-! ### A read after a write -/

theorem Memory.read_erase_same (m : Memory) (a : Nat) : (m.erase a).read a = Memory.unlisted a := by
  induction m with
  | nil => rfl
  | cons c m ih =>
    obtain ⟨k, b⟩ := c
    by_cases h : k = a
    · simpa [Memory.erase, h] using ih
    · simpa [Memory.erase, h, Memory.read] using ih

theorem Memory.read_erase_ne (m : Memory) {a c : Nat} (hc : c ≠ a) : (m.erase a).read c = m.read c := by
  induction m with
  | nil => rfl
  | cons e m ih =>
    obtain ⟨k, b⟩ := e
    by_cases h : k = a
    · simpa [Memory.erase, h, Memory.read, Ne.symm hc] using ih
    · by_cases h' : k = c
      · simp [Memory.erase, Memory.read, h', hc]
      · simpa [Memory.erase, h, Memory.read, h'] using ih

theorem Memory.read_insert_same (m : Memory) (a : Nat) (b : Byte) (h : ∀ c ∈ m, c.1 ≠ a) :
    (m.insert a b).read a = b := by
  induction m with
  | nil => simp [Memory.insert, Memory.read]
  | cons c m ih =>
    obtain ⟨k, d⟩ := c
    have hk : k ≠ a := h (k, d) (by simp)
    have hm : ∀ c ∈ m, c.1 ≠ a := fun c hc => h c (by simp [hc])
    by_cases hlt : a < k
    · simp [Memory.insert, Memory.read, hlt]
    · simpa [Memory.insert, Memory.read, hlt, hk] using ih hm

theorem Memory.read_insert_ne (m : Memory) {a c : Nat} (b : Byte) (hc : c ≠ a) :
    (m.insert a b).read c = m.read c := by
  induction m with
  | nil => simp [Memory.insert, Memory.read, Ne.symm hc]
  | cons e m ih =>
    obtain ⟨k, d⟩ := e
    by_cases hlt : a < k
    · simp [Memory.insert, Memory.read, hlt, Ne.symm hc]
    · simp [Memory.insert, Memory.read, hlt, ih]

theorem Memory.erase_ne (m : Memory) (a : Nat) : ∀ c ∈ m.erase a, c.1 ≠ a := by
  intro c hc
  simpa using (List.mem_filter.mp hc).2

/-- One byte written, one byte read, of any two memories and addresses. -/
theorem Memory.read_write (m : Memory) (a c : Nat) (b : Byte) :
    (m.write a b).read c = if c = a then b else m.read c := by
  unfold Memory.write
  by_cases hc : c = a
  · subst hc
    by_cases hb : b = Memory.unlisted c
    · simp [hb, Memory.read_erase_same]
    · simp [hb, Memory.read_insert_same _ _ _ (Memory.erase_ne m c)]
  · by_cases hb : b = Memory.unlisted a
    · simp [hb, hc, Memory.read_erase_ne m hc]
    · simp [hb, hc, Memory.read_insert_ne _ b hc, Memory.read_erase_ne m hc]

/-- A run of bytes written: the addresses it covers read the run, every other address reads as before. -/
theorem Memory.read_writeBytes (bs : List Byte) : ∀ (m : Memory) (a c : Nat),
    (m.writeBytes a bs).read c = if a ≤ c then bs.getD (c - a) (m.read c) else m.read c := by
  induction bs with
  | nil => intro m a c; simp [Memory.writeBytes]
  | cons b bs ih =>
    intro m a c
    rw [Memory.writeBytes, ih, Memory.read_write]
    by_cases hlt : c < a
    · simp [Nat.not_le.mpr hlt, Nat.ne_of_lt hlt, show ¬ a + 1 ≤ c by omega]
    · by_cases heq : c = a
      · subst heq; simp
      · have hle : a + 1 ≤ c := by omega
        obtain ⟨d, rfl⟩ := Nat.exists_eq_add_of_le hle
        have hne : ¬ a + 1 + d = a := by omega
        have hge : a ≤ a + 1 + d := by omega
        have hsub : a + 1 + d - a = d + 1 := by omega
        simp [hne, hge, hsub]

theorem Memory.read_writeBytes_mem (m : Memory) (a k : Nat) (bs : List Byte) (h : k < bs.length) :
    (m.writeBytes a bs).read (a + k) = bs[k] := by
  simp [Memory.read_writeBytes, h]

theorem Memory.read_writeBytes_outside (m : Memory) (a c : Nat) (bs : List Byte) (h : c < a ∨ a + bs.length ≤ c) :
    (m.writeBytes a bs).read c = m.read c := by
  rw [Memory.read_writeBytes]
  split
  · rw [List.getD_eq_default _ _ (by omega)]
  · rfl

theorem Memory.readBytes_length (n : Nat) : ∀ (m : Memory) (a : Nat), (m.readBytes a n).length = n := by
  induction n with
  | zero => intro m a; rfl
  | succ n ih => intro m a; simp [Memory.readBytes, ih]

theorem Memory.readBytes_getElem (n : Nat) : ∀ (m : Memory) (a k : Nat) (h : k < (m.readBytes a n).length),
    (m.readBytes a n)[k] = m.read (a + k) := by
  induction n with
  | zero => intro m a k h; simp [Memory.readBytes] at h
  | succ n ih =>
    intro m a k h
    cases k with
    | zero => simp [Memory.readBytes]
    | succ k => simp only [Memory.readBytes, List.getElem_cons_succ, ih]; congr 1; omega

/-! ### The canonical form -/

theorem Memory.rising_mono {m : Memory} : ∀ {lo hi : Nat}, Memory.rising hi m = true → lo ≤ hi →
    Memory.rising lo m = true := by
  cases m with
  | nil => intros; rfl
  | cons c m =>
    intro lo hi h hle
    simp only [Memory.rising, Bool.and_eq_true, decide_eq_true_eq] at h ⊢
    exact ⟨by omega, h.2⟩

theorem Memory.rising_erase (m : Memory) (a : Nat) : ∀ lo, Memory.rising lo m = true →
    Memory.rising lo (m.erase a) = true := by
  induction m with
  | nil => intro lo h; exact h
  | cons c m ih =>
    obtain ⟨k, b⟩ := c
    intro lo h
    simp only [Memory.rising, Bool.and_eq_true, decide_eq_true_eq] at h
    by_cases hk : k = a
    · have := ih (k + 1) h.2
      simpa [Memory.erase, hk] using Memory.rising_mono (by simpa [Memory.erase, hk] using this) (by omega : lo ≤ a + 1)
    · have := ih (k + 1) h.2
      simpa [Memory.erase, hk, Memory.rising, h.1] using this

theorem Memory.rising_insert (m : Memory) (a : Nat) (b : Byte) (hne : ∀ c ∈ m, c.1 ≠ a) : ∀ lo, lo ≤ a →
    Memory.rising lo m = true → Memory.rising lo (m.insert a b) = true := by
  induction m with
  | nil => intro lo hle _; simp [Memory.insert, Memory.rising, hle]
  | cons c m ih =>
    obtain ⟨k, d⟩ := c
    intro lo hle h
    simp only [Memory.rising, Bool.and_eq_true, decide_eq_true_eq] at h
    have hk : k ≠ a := hne (k, d) (by simp)
    by_cases hlt : a < k
    · have hak : a + 1 ≤ k := hlt
      simp [Memory.insert, hlt, Memory.rising, hle, hak, h.2]
    · have := ih (fun c hc => hne c (by simp [hc])) (k + 1) (by omega) h.2
      simp [Memory.insert, hlt, Memory.rising, h.1, this]

theorem Memory.mem_insert {m : Memory} {a : Nat} {b : Byte} {c : Host.Cell} (h : c ∈ m.insert a b) :
    c = (a, b) ∨ c ∈ m := by
  induction m with
  | nil => simpa [Memory.insert] using h
  | cons e m ih =>
    obtain ⟨k, d⟩ := e
    by_cases hlt : a < k
    · simpa [Memory.insert, hlt] using h
    · simp only [Memory.insert, hlt, if_false, List.mem_cons] at h ⊢
      rcases h with h | h
      · exact .inr (.inl h)
      · rcases ih h with h | h
        · exact .inl h
        · exact .inr (.inr h)

theorem Memory.wf_iff (m : Memory) : m.wf = true ↔
    Memory.rising 0 m = true ∧ ∀ c ∈ m, c.1 < Config.memSize ∧ c.2 ≠ Memory.unlisted c.1 := by
  simp [Memory.wf, List.all_eq_true]

theorem Memory.wf_erase {m : Memory} (h : m.wf = true) (a : Nat) : (m.erase a).wf = true := by
  rw [Memory.wf_iff] at h ⊢
  exact ⟨Memory.rising_erase m a 0 h.1, fun c hc => h.2 c (List.mem_filter.mp hc).1⟩

/-- A byte written below 4096 keeps the canonical form. -/
theorem Memory.wf_write {m : Memory} (h : m.wf = true) {a : Nat} (ha : a < Config.memSize) (b : Byte) :
    (m.write a b).wf = true := by
  unfold Memory.write
  have he := Memory.wf_erase h a
  by_cases hb : b = Memory.unlisted a
  · simpa [hb] using he
  · rw [if_neg hb]
    rw [Memory.wf_iff] at he ⊢
    refine ⟨Memory.rising_insert _ a b (Memory.erase_ne m a) 0 (Nat.zero_le a) he.1, fun c hc => ?_⟩
    rcases Memory.mem_insert hc with rfl | hc
    · exact ⟨ha, hb⟩
    · exact he.2 c hc

/-- A run of bytes written below 4096 keeps the canonical form. -/
theorem Memory.wf_writeBytes (bs : List Byte) : ∀ {m : Memory}, m.wf = true → ∀ {a : Nat},
    a + bs.length ≤ Config.memSize → (m.writeBytes a bs).wf = true := by
  induction bs with
  | nil => intro m h a _; exact h
  | cons b bs ih =>
    intro m h a hle
    simp only [List.length_cons] at hle
    exact ih (Memory.wf_write h (by omega) b) (by omega)

theorem Memory.wf_nil : Memory.wf [] = true := rfl

end Sys2Proof.Machine
end

