-- ==== Sys2Proof/Laws/State.lean ====
section
/-! SUPPORT. The small lemmas of the state: one per field per update, each true by unfolding the record once, so that no
later proof unfolds a record update. -/

namespace Sys2Proof.Machine

variable (s : State)

/-! ### `setReg` -/

@[simp] theorem State.setReg_mem (x : Reg) (b : Byte) : (s.setReg x b).mem = s.mem := rfl
@[simp] theorem State.setReg_v (x : Reg) (b : Byte) : (s.setReg x b).v = s.v.set x b := rfl
@[simp] theorem State.setReg_i (x : Reg) (b : Byte) : (s.setReg x b).i = s.i := rfl
@[simp] theorem State.setReg_pc (x : Reg) (b : Byte) : (s.setReg x b).pc = s.pc := rfl
@[simp] theorem State.setReg_stack (x : Reg) (b : Byte) : (s.setReg x b).stack = s.stack := rfl
@[simp] theorem State.setReg_sp (x : Reg) (b : Byte) : (s.setReg x b).sp = s.sp := rfl
@[simp] theorem State.setReg_dt (x : Reg) (b : Byte) : (s.setReg x b).dt = s.dt := rfl
@[simp] theorem State.setReg_st (x : Reg) (b : Byte) : (s.setReg x b).st = s.st := rfl
@[simp] theorem State.setReg_fb (x : Reg) (b : Byte) : (s.setReg x b).fb = s.fb := rfl
@[simp] theorem State.setReg_dirty (x : Reg) (b : Byte) : (s.setReg x b).dirty = s.dirty := rfl
@[simp] theorem State.setReg_key (x : Reg) (b : Byte) : (s.setReg x b).key = s.key := rfl
@[simp] theorem State.setReg_w (x : Reg) (b : Byte) : (s.setReg x b).w = s.w := rfl
@[simp] theorem State.setReg_fault (x : Reg) (b : Byte) : (s.setReg x b).fault = s.fault := rfl
@[simp] theorem State.setReg_draws (x : Reg) (b : Byte) : (s.setReg x b).draws = s.draws := rfl

/-! ### `setI` -/

@[simp] theorem State.setI_mem (a : Word) : (s.setI a).mem = s.mem := rfl
@[simp] theorem State.setI_v (a : Word) : (s.setI a).v = s.v := rfl
@[simp] theorem State.setI_i (a : Word) : (s.setI a).i = a := rfl
@[simp] theorem State.setI_pc (a : Word) : (s.setI a).pc = s.pc := rfl
@[simp] theorem State.setI_stack (a : Word) : (s.setI a).stack = s.stack := rfl
@[simp] theorem State.setI_sp (a : Word) : (s.setI a).sp = s.sp := rfl
@[simp] theorem State.setI_dt (a : Word) : (s.setI a).dt = s.dt := rfl
@[simp] theorem State.setI_st (a : Word) : (s.setI a).st = s.st := rfl
@[simp] theorem State.setI_fb (a : Word) : (s.setI a).fb = s.fb := rfl
@[simp] theorem State.setI_dirty (a : Word) : (s.setI a).dirty = s.dirty := rfl
@[simp] theorem State.setI_key (a : Word) : (s.setI a).key = s.key := rfl
@[simp] theorem State.setI_w (a : Word) : (s.setI a).w = s.w := rfl
@[simp] theorem State.setI_fault (a : Word) : (s.setI a).fault = s.fault := rfl
@[simp] theorem State.setI_draws (a : Word) : (s.setI a).draws = s.draws := rfl

/-! ### `setDT` -/

@[simp] theorem State.setDT_mem (b : Byte) : (s.setDT b).mem = s.mem := rfl
@[simp] theorem State.setDT_v (b : Byte) : (s.setDT b).v = s.v := rfl
@[simp] theorem State.setDT_i (b : Byte) : (s.setDT b).i = s.i := rfl
@[simp] theorem State.setDT_pc (b : Byte) : (s.setDT b).pc = s.pc := rfl
@[simp] theorem State.setDT_stack (b : Byte) : (s.setDT b).stack = s.stack := rfl
@[simp] theorem State.setDT_sp (b : Byte) : (s.setDT b).sp = s.sp := rfl
@[simp] theorem State.setDT_dt (b : Byte) : (s.setDT b).dt = b := rfl
@[simp] theorem State.setDT_st (b : Byte) : (s.setDT b).st = s.st := rfl
@[simp] theorem State.setDT_fb (b : Byte) : (s.setDT b).fb = s.fb := rfl
@[simp] theorem State.setDT_dirty (b : Byte) : (s.setDT b).dirty = s.dirty := rfl
@[simp] theorem State.setDT_key (b : Byte) : (s.setDT b).key = s.key := rfl
@[simp] theorem State.setDT_w (b : Byte) : (s.setDT b).w = s.w := rfl
@[simp] theorem State.setDT_fault (b : Byte) : (s.setDT b).fault = s.fault := rfl
@[simp] theorem State.setDT_draws (b : Byte) : (s.setDT b).draws = s.draws := rfl

/-! ### `setST` -/

@[simp] theorem State.setST_mem (b : Byte) : (s.setST b).mem = s.mem := rfl
@[simp] theorem State.setST_v (b : Byte) : (s.setST b).v = s.v := rfl
@[simp] theorem State.setST_i (b : Byte) : (s.setST b).i = s.i := rfl
@[simp] theorem State.setST_pc (b : Byte) : (s.setST b).pc = s.pc := rfl
@[simp] theorem State.setST_stack (b : Byte) : (s.setST b).stack = s.stack := rfl
@[simp] theorem State.setST_sp (b : Byte) : (s.setST b).sp = s.sp := rfl
@[simp] theorem State.setST_dt (b : Byte) : (s.setST b).dt = s.dt := rfl
@[simp] theorem State.setST_st (b : Byte) : (s.setST b).st = b := rfl
@[simp] theorem State.setST_fb (b : Byte) : (s.setST b).fb = s.fb := rfl
@[simp] theorem State.setST_dirty (b : Byte) : (s.setST b).dirty = s.dirty := rfl
@[simp] theorem State.setST_key (b : Byte) : (s.setST b).key = s.key := rfl
@[simp] theorem State.setST_w (b : Byte) : (s.setST b).w = s.w := rfl
@[simp] theorem State.setST_fault (b : Byte) : (s.setST b).fault = s.fault := rfl
@[simp] theorem State.setST_draws (b : Byte) : (s.setST b).draws = s.draws := rfl

/-! ### `setMem` -/

@[simp] theorem State.setMem_mem (m : Memory) : (s.setMem m).mem = m := rfl
@[simp] theorem State.setMem_v (m : Memory) : (s.setMem m).v = s.v := rfl
@[simp] theorem State.setMem_i (m : Memory) : (s.setMem m).i = s.i := rfl
@[simp] theorem State.setMem_pc (m : Memory) : (s.setMem m).pc = s.pc := rfl
@[simp] theorem State.setMem_stack (m : Memory) : (s.setMem m).stack = s.stack := rfl
@[simp] theorem State.setMem_sp (m : Memory) : (s.setMem m).sp = s.sp := rfl
@[simp] theorem State.setMem_dt (m : Memory) : (s.setMem m).dt = s.dt := rfl
@[simp] theorem State.setMem_st (m : Memory) : (s.setMem m).st = s.st := rfl
@[simp] theorem State.setMem_fb (m : Memory) : (s.setMem m).fb = s.fb := rfl
@[simp] theorem State.setMem_dirty (m : Memory) : (s.setMem m).dirty = s.dirty := rfl
@[simp] theorem State.setMem_key (m : Memory) : (s.setMem m).key = s.key := rfl
@[simp] theorem State.setMem_w (m : Memory) : (s.setMem m).w = s.w := rfl
@[simp] theorem State.setMem_fault (m : Memory) : (s.setMem m).fault = s.fault := rfl
@[simp] theorem State.setMem_draws (m : Memory) : (s.setMem m).draws = s.draws := rfl

/-! ### `setV` -/

@[simp] theorem State.setV_mem (v : Vector Byte 16) : (s.setV v).mem = s.mem := rfl
@[simp] theorem State.setV_v (v : Vector Byte 16) : (s.setV v).v = v := rfl
@[simp] theorem State.setV_i (v : Vector Byte 16) : (s.setV v).i = s.i := rfl
@[simp] theorem State.setV_pc (v : Vector Byte 16) : (s.setV v).pc = s.pc := rfl
@[simp] theorem State.setV_stack (v : Vector Byte 16) : (s.setV v).stack = s.stack := rfl
@[simp] theorem State.setV_sp (v : Vector Byte 16) : (s.setV v).sp = s.sp := rfl
@[simp] theorem State.setV_dt (v : Vector Byte 16) : (s.setV v).dt = s.dt := rfl
@[simp] theorem State.setV_st (v : Vector Byte 16) : (s.setV v).st = s.st := rfl
@[simp] theorem State.setV_fb (v : Vector Byte 16) : (s.setV v).fb = s.fb := rfl
@[simp] theorem State.setV_dirty (v : Vector Byte 16) : (s.setV v).dirty = s.dirty := rfl
@[simp] theorem State.setV_key (v : Vector Byte 16) : (s.setV v).key = s.key := rfl
@[simp] theorem State.setV_w (v : Vector Byte 16) : (s.setV v).w = s.w := rfl
@[simp] theorem State.setV_fault (v : Vector Byte 16) : (s.setV v).fault = s.fault := rfl
@[simp] theorem State.setV_draws (v : Vector Byte 16) : (s.setV v).draws = s.draws := rfl

/-! ### `paint` -/

@[simp] theorem State.paint_mem (fb : Framebuffer) : (s.paint fb).mem = s.mem := rfl
@[simp] theorem State.paint_v (fb : Framebuffer) : (s.paint fb).v = s.v := rfl
@[simp] theorem State.paint_i (fb : Framebuffer) : (s.paint fb).i = s.i := rfl
@[simp] theorem State.paint_pc (fb : Framebuffer) : (s.paint fb).pc = s.pc := rfl
@[simp] theorem State.paint_stack (fb : Framebuffer) : (s.paint fb).stack = s.stack := rfl
@[simp] theorem State.paint_sp (fb : Framebuffer) : (s.paint fb).sp = s.sp := rfl
@[simp] theorem State.paint_dt (fb : Framebuffer) : (s.paint fb).dt = s.dt := rfl
@[simp] theorem State.paint_st (fb : Framebuffer) : (s.paint fb).st = s.st := rfl
@[simp] theorem State.paint_fb (fb : Framebuffer) : (s.paint fb).fb = fb := rfl
@[simp] theorem State.paint_dirty (fb : Framebuffer) : (s.paint fb).dirty = true := rfl
@[simp] theorem State.paint_key (fb : Framebuffer) : (s.paint fb).key = s.key := rfl
@[simp] theorem State.paint_w (fb : Framebuffer) : (s.paint fb).w = s.w := rfl
@[simp] theorem State.paint_fault (fb : Framebuffer) : (s.paint fb).fault = s.fault := rfl
@[simp] theorem State.paint_draws (fb : Framebuffer) : (s.paint fb).draws = s.draws := rfl

/-! ### `countDraw` -/

@[simp] theorem State.countDraw_mem : (s.countDraw).mem = s.mem := rfl
@[simp] theorem State.countDraw_v : (s.countDraw).v = s.v := rfl
@[simp] theorem State.countDraw_i : (s.countDraw).i = s.i := rfl
@[simp] theorem State.countDraw_pc : (s.countDraw).pc = s.pc := rfl
@[simp] theorem State.countDraw_stack : (s.countDraw).stack = s.stack := rfl
@[simp] theorem State.countDraw_sp : (s.countDraw).sp = s.sp := rfl
@[simp] theorem State.countDraw_dt : (s.countDraw).dt = s.dt := rfl
@[simp] theorem State.countDraw_st : (s.countDraw).st = s.st := rfl
@[simp] theorem State.countDraw_fb : (s.countDraw).fb = s.fb := rfl
@[simp] theorem State.countDraw_dirty : (s.countDraw).dirty = s.dirty := rfl
@[simp] theorem State.countDraw_key : (s.countDraw).key = s.key := rfl
@[simp] theorem State.countDraw_w : (s.countDraw).w = s.w := rfl
@[simp] theorem State.countDraw_fault : (s.countDraw).fault = s.fault := rfl
@[simp] theorem State.countDraw_draws : (s.countDraw).draws = s.draws + 1 := rfl

/-! ### `complete` -/

@[simp] theorem State.complete_mem (pc : Word) : (s.complete pc).mem = s.mem := rfl
@[simp] theorem State.complete_v (pc : Word) : (s.complete pc).v = s.v := rfl
@[simp] theorem State.complete_i (pc : Word) : (s.complete pc).i = s.i := rfl
@[simp] theorem State.complete_pc (pc : Word) : (s.complete pc).pc = pc := rfl
@[simp] theorem State.complete_stack (pc : Word) : (s.complete pc).stack = s.stack := rfl
@[simp] theorem State.complete_sp (pc : Word) : (s.complete pc).sp = s.sp := rfl
@[simp] theorem State.complete_dt (pc : Word) : (s.complete pc).dt = s.dt := rfl
@[simp] theorem State.complete_st (pc : Word) : (s.complete pc).st = s.st := rfl
@[simp] theorem State.complete_fb (pc : Word) : (s.complete pc).fb = s.fb := rfl
@[simp] theorem State.complete_dirty (pc : Word) : (s.complete pc).dirty = s.dirty := rfl
@[simp] theorem State.complete_key (pc : Word) : (s.complete pc).key = s.key := rfl
@[simp] theorem State.complete_w (pc : Word) : (s.complete pc).w = false := rfl
@[simp] theorem State.complete_fault (pc : Word) : (s.complete pc).fault = s.fault := rfl
@[simp] theorem State.complete_draws (pc : Word) : (s.complete pc).draws = s.draws := rfl

/-! ### `await` -/

@[simp] theorem State.await_mem : (s.await).mem = s.mem := rfl
@[simp] theorem State.await_v : (s.await).v = s.v := rfl
@[simp] theorem State.await_i : (s.await).i = s.i := rfl
@[simp] theorem State.await_pc : (s.await).pc = s.pc := rfl
@[simp] theorem State.await_stack : (s.await).stack = s.stack := rfl
@[simp] theorem State.await_sp : (s.await).sp = s.sp := rfl
@[simp] theorem State.await_dt : (s.await).dt = s.dt := rfl
@[simp] theorem State.await_st : (s.await).st = s.st := rfl
@[simp] theorem State.await_fb : (s.await).fb = s.fb := rfl
@[simp] theorem State.await_dirty : (s.await).dirty = s.dirty := rfl
@[simp] theorem State.await_key : (s.await).key = s.key := rfl
@[simp] theorem State.await_w : (s.await).w = true := rfl
@[simp] theorem State.await_fault : (s.await).fault = s.fault := rfl
@[simp] theorem State.await_draws : (s.await).draws = s.draws := rfl

/-! ### `next`, `skip`: instances of `complete` -/

theorem State.next_eq : s.next = s.complete (s.pc + 2) := rfl

theorem State.skip_eq : s.skip = s.complete (s.pc + 4) := rfl

@[simp] theorem State.next_mem : s.next.mem = s.mem := rfl
@[simp] theorem State.next_v : s.next.v = s.v := rfl
@[simp] theorem State.next_i : s.next.i = s.i := rfl
@[simp] theorem State.next_pc : s.next.pc = s.pc + 2 := rfl
@[simp] theorem State.next_stack : s.next.stack = s.stack := rfl
@[simp] theorem State.next_sp : s.next.sp = s.sp := rfl
@[simp] theorem State.next_dt : s.next.dt = s.dt := rfl
@[simp] theorem State.next_st : s.next.st = s.st := rfl
@[simp] theorem State.next_fb : s.next.fb = s.fb := rfl
@[simp] theorem State.next_dirty : s.next.dirty = s.dirty := rfl
@[simp] theorem State.next_key : s.next.key = s.key := rfl
@[simp] theorem State.next_w : s.next.w = false := rfl
@[simp] theorem State.next_fault : s.next.fault = s.fault := rfl
@[simp] theorem State.next_draws : s.next.draws = s.draws := rfl

@[simp] theorem State.skip_mem : s.skip.mem = s.mem := rfl
@[simp] theorem State.skip_v : s.skip.v = s.v := rfl
@[simp] theorem State.skip_i : s.skip.i = s.i := rfl
@[simp] theorem State.skip_pc : s.skip.pc = s.pc + 4 := rfl
@[simp] theorem State.skip_stack : s.skip.stack = s.stack := rfl
@[simp] theorem State.skip_sp : s.skip.sp = s.sp := rfl
@[simp] theorem State.skip_dt : s.skip.dt = s.dt := rfl
@[simp] theorem State.skip_st : s.skip.st = s.st := rfl
@[simp] theorem State.skip_fb : s.skip.fb = s.fb := rfl
@[simp] theorem State.skip_dirty : s.skip.dirty = s.dirty := rfl
@[simp] theorem State.skip_key : s.skip.key = s.key := rfl
@[simp] theorem State.skip_w : s.skip.w = false := rfl
@[simp] theorem State.skip_fault : s.skip.fault = s.fault := rfl
@[simp] theorem State.skip_draws : s.skip.draws = s.draws := rfl

/-! ### `skipIf`: both branches keep everything but `PC` and `W` -/

theorem State.skipIf_eq (c : Bool) : s.skipIf c = s.complete (if c then s.pc + 4 else s.pc + 2) := by
  cases c <;> rfl

@[simp] theorem State.skipIf_mem (c : Bool) : (s.skipIf c).mem = s.mem := by cases c <;> rfl
@[simp] theorem State.skipIf_v (c : Bool) : (s.skipIf c).v = s.v := by cases c <;> rfl
@[simp] theorem State.skipIf_i (c : Bool) : (s.skipIf c).i = s.i := by cases c <;> rfl
@[simp] theorem State.skipIf_pc (c : Bool) : (s.skipIf c).pc = if c then s.pc + 4 else s.pc + 2 := by cases c <;> rfl
@[simp] theorem State.skipIf_stack (c : Bool) : (s.skipIf c).stack = s.stack := by cases c <;> rfl
@[simp] theorem State.skipIf_sp (c : Bool) : (s.skipIf c).sp = s.sp := by cases c <;> rfl
@[simp] theorem State.skipIf_dt (c : Bool) : (s.skipIf c).dt = s.dt := by cases c <;> rfl
@[simp] theorem State.skipIf_st (c : Bool) : (s.skipIf c).st = s.st := by cases c <;> rfl
@[simp] theorem State.skipIf_fb (c : Bool) : (s.skipIf c).fb = s.fb := by cases c <;> rfl
@[simp] theorem State.skipIf_dirty (c : Bool) : (s.skipIf c).dirty = s.dirty := by cases c <;> rfl
@[simp] theorem State.skipIf_key (c : Bool) : (s.skipIf c).key = s.key := by cases c <;> rfl
@[simp] theorem State.skipIf_w (c : Bool) : (s.skipIf c).w = false := by cases c <;> rfl
@[simp] theorem State.skipIf_fault (c : Bool) : (s.skipIf c).fault = s.fault := by cases c <;> rfl
@[simp] theorem State.skipIf_draws (c : Bool) : (s.skipIf c).draws = s.draws := by cases c <;> rfl

/-! ### Register reads after updates -/

@[simp] theorem State.reg_setReg_same (x : Reg) (b : Byte) : (s.setReg x b).reg x = b := by
  simp [State.reg]

theorem State.reg_setReg_ne (x r : Reg) (b : Byte) (h : r ≠ x) : (s.setReg x b).reg r = s.reg r := by
  simp [State.reg, Fin.val_ne_of_ne (Ne.symm h)]

theorem State.reg_setReg (x r : Reg) (b : Byte) : (s.setReg x b).reg r = if r = x then b else s.reg r := by
  by_cases h : r = x
  · subst h; simp
  · simp [h, State.reg_setReg_ne]

/-- Two states with the same register file read the same registers. -/
theorem State.reg_congr {s t : State} (h : t.v = s.v) (r : Reg) : t.reg r = s.reg r := by
  simp only [State.reg, h]

theorem State.slot_congr {s t : State} (h : t.stack = s.stack) (k : Fin 16) : t.slot k = s.slot k := by
  simp only [State.slot, h]

theorem State.pixel_congr {s t : State} (h : t.fb = s.fb) (y : Fin 32) (x : Fin 64) : t.pixel y x = s.pixel y x := by
  simp only [State.pixel, h]

theorem State.keyDown_congr {s t : State} (h : t.key = s.key) (k : Fin 16) : t.keyDown k = s.keyDown k := by
  simp only [State.keyDown, h]

/-! ### `reg` reads through every update that leaves its home alone -/

@[simp] theorem State.reg_setI (a : Word) (r : Reg) : (s.setI a).reg r = s.reg r := rfl
@[simp] theorem State.reg_setDT (b : Byte) (r : Reg) : (s.setDT b).reg r = s.reg r := rfl
@[simp] theorem State.reg_setST (b : Byte) (r : Reg) : (s.setST b).reg r = s.reg r := rfl
@[simp] theorem State.reg_setMem (m : Memory) (r : Reg) : (s.setMem m).reg r = s.reg r := rfl
@[simp] theorem State.reg_paint (fb' : Framebuffer) (r : Reg) : (s.paint fb').reg r = s.reg r := rfl
@[simp] theorem State.reg_countDraw (r : Reg) : (s.countDraw).reg r = s.reg r := rfl
@[simp] theorem State.reg_complete (pc : Word) (r : Reg) : (s.complete pc).reg r = s.reg r := rfl
@[simp] theorem State.reg_await (r : Reg) : (s.await).reg r = s.reg r := rfl
@[simp] theorem State.reg_next (r : Reg) : (s.next).reg r = s.reg r := rfl
@[simp] theorem State.reg_skip (r : Reg) : (s.skip).reg r = s.reg r := rfl
@[simp] theorem State.reg_skipIf (cond : Bool) (r : Reg) : (s.skipIf cond).reg r = s.reg r := by cases cond <;> rfl

/-! ### `slot` reads through every update that leaves its home alone -/

@[simp] theorem State.slot_setReg (x : Reg) (b : Byte) (k : Fin 16) : (s.setReg x b).slot k = s.slot k := rfl
@[simp] theorem State.slot_setI (a : Word) (k : Fin 16) : (s.setI a).slot k = s.slot k := rfl
@[simp] theorem State.slot_setDT (b : Byte) (k : Fin 16) : (s.setDT b).slot k = s.slot k := rfl
@[simp] theorem State.slot_setST (b : Byte) (k : Fin 16) : (s.setST b).slot k = s.slot k := rfl
@[simp] theorem State.slot_setMem (m : Memory) (k : Fin 16) : (s.setMem m).slot k = s.slot k := rfl
@[simp] theorem State.slot_setV (v : Vector Byte 16) (k : Fin 16) : (s.setV v).slot k = s.slot k := rfl
@[simp] theorem State.slot_paint (fb' : Framebuffer) (k : Fin 16) : (s.paint fb').slot k = s.slot k := rfl
@[simp] theorem State.slot_countDraw (k : Fin 16) : (s.countDraw).slot k = s.slot k := rfl
@[simp] theorem State.slot_complete (pc : Word) (k : Fin 16) : (s.complete pc).slot k = s.slot k := rfl
@[simp] theorem State.slot_await (k : Fin 16) : (s.await).slot k = s.slot k := rfl
@[simp] theorem State.slot_next (k : Fin 16) : (s.next).slot k = s.slot k := rfl
@[simp] theorem State.slot_skip (k : Fin 16) : (s.skip).slot k = s.slot k := rfl
@[simp] theorem State.slot_skipIf (cond : Bool) (k : Fin 16) : (s.skipIf cond).slot k = s.slot k := by cases cond <;> rfl

/-! ### `pixel` reads through every update that leaves its home alone -/

@[simp] theorem State.pixel_setReg (x : Reg) (b : Byte) (y : Fin 32) (c : Fin 64) : (s.setReg x b).pixel y c = s.pixel y c := rfl
@[simp] theorem State.pixel_setI (a : Word) (y : Fin 32) (c : Fin 64) : (s.setI a).pixel y c = s.pixel y c := rfl
@[simp] theorem State.pixel_setDT (b : Byte) (y : Fin 32) (c : Fin 64) : (s.setDT b).pixel y c = s.pixel y c := rfl
@[simp] theorem State.pixel_setST (b : Byte) (y : Fin 32) (c : Fin 64) : (s.setST b).pixel y c = s.pixel y c := rfl
@[simp] theorem State.pixel_setMem (m : Memory) (y : Fin 32) (c : Fin 64) : (s.setMem m).pixel y c = s.pixel y c := rfl
@[simp] theorem State.pixel_setV (v : Vector Byte 16) (y : Fin 32) (c : Fin 64) : (s.setV v).pixel y c = s.pixel y c := rfl
@[simp] theorem State.pixel_countDraw (y : Fin 32) (c : Fin 64) : (s.countDraw).pixel y c = s.pixel y c := rfl
@[simp] theorem State.pixel_complete (pc : Word) (y : Fin 32) (c : Fin 64) : (s.complete pc).pixel y c = s.pixel y c := rfl
@[simp] theorem State.pixel_await (y : Fin 32) (c : Fin 64) : (s.await).pixel y c = s.pixel y c := rfl
@[simp] theorem State.pixel_next (y : Fin 32) (c : Fin 64) : (s.next).pixel y c = s.pixel y c := rfl
@[simp] theorem State.pixel_skip (y : Fin 32) (c : Fin 64) : (s.skip).pixel y c = s.pixel y c := rfl
@[simp] theorem State.pixel_skipIf (cond : Bool) (y : Fin 32) (c : Fin 64) : (s.skipIf cond).pixel y c = s.pixel y c := by cases cond <;> rfl

/-! ### `keyDown` reads through every update that leaves its home alone -/

@[simp] theorem State.keyDown_setReg (x : Reg) (b : Byte) (k : Fin 16) : (s.setReg x b).keyDown k = s.keyDown k := rfl
@[simp] theorem State.keyDown_setI (a : Word) (k : Fin 16) : (s.setI a).keyDown k = s.keyDown k := rfl
@[simp] theorem State.keyDown_setDT (b : Byte) (k : Fin 16) : (s.setDT b).keyDown k = s.keyDown k := rfl
@[simp] theorem State.keyDown_setST (b : Byte) (k : Fin 16) : (s.setST b).keyDown k = s.keyDown k := rfl
@[simp] theorem State.keyDown_setMem (m : Memory) (k : Fin 16) : (s.setMem m).keyDown k = s.keyDown k := rfl
@[simp] theorem State.keyDown_setV (v : Vector Byte 16) (k : Fin 16) : (s.setV v).keyDown k = s.keyDown k := rfl
@[simp] theorem State.keyDown_paint (fb' : Framebuffer) (k : Fin 16) : (s.paint fb').keyDown k = s.keyDown k := rfl
@[simp] theorem State.keyDown_countDraw (k : Fin 16) : (s.countDraw).keyDown k = s.keyDown k := rfl
@[simp] theorem State.keyDown_complete (pc : Word) (k : Fin 16) : (s.complete pc).keyDown k = s.keyDown k := rfl
@[simp] theorem State.keyDown_await (k : Fin 16) : (s.await).keyDown k = s.keyDown k := rfl
@[simp] theorem State.keyDown_next (k : Fin 16) : (s.next).keyDown k = s.keyDown k := rfl
@[simp] theorem State.keyDown_skip (k : Fin 16) : (s.skip).keyDown k = s.keyDown k := rfl
@[simp] theorem State.keyDown_skipIf (cond : Bool) (k : Fin 16) : (s.skipIf cond).keyDown k = s.keyDown k := by cases cond <;> rfl

@[simp] theorem State.reg_setV (v : Vector Byte 16) (r : Reg) : (s.setV v).reg r = v[r] := rfl

@[simp] theorem State.pixel_paint (fb' : Framebuffer) (y : Fin 32) (c : Fin 64) : (s.paint fb').pixel y c = fb'[y][c] := rfl

end Sys2Proof.Machine
end

