-- ==== Sys2Proof/Laws/Ops.lean ====
section
/-! SUPPORT. One lemma per shared operation: everything it can answer, said once. -/

namespace Sys2Proof.Machine

/-! ### The call stack -/

theorem State.push?_of_lt (s : State) (ret : Word) (h : s.sp.val < 16) :
    s.push? ret =
      some { s with stack := s.stack.set s.sp.val ret, sp := ⟨s.sp.val + 1, Nat.succ_lt_succ h⟩ } := by
  simp only [State.push?, dif_pos h]

theorem State.push?_of_full (s : State) (ret : Word) (h : ¬ s.sp.val < 16) : s.push? ret = none := by
  simp only [State.push?, dif_neg h]

theorem State.pop?_of_pos (s : State) (h : 0 < s.sp.val) :
    s.pop? = some (s.slot ⟨s.sp.val - 1, by have := s.sp.isLt; omega⟩,
      { s with sp := ⟨s.sp.val - 1, by have := s.sp.isLt; omega⟩ }) := by
  simp only [State.pop?, dif_pos h]; rfl

theorem State.pop?_of_empty (s : State) (h : s.sp.val = 0) : s.pop? = none := by
  simp only [State.pop?, dif_neg (Nat.not_lt_of_le (Nat.le_of_eq h))]

/-! ### Faults -/

theorem raise_eq (c : Cause) (s : State) : raise c s = .next { s with fault := c } := rfl

theorem State.halted_eq_true_iff (s : State) : s.halted = true ↔ s.fault ≠ .noFault := by
  simp [State.halted]

theorem State.halted_eq_false_iff (s : State) : s.halted = false ↔ s.fault = .noFault := by
  simp [State.halted]

/-! ### Fetch -/

theorem fetchWord_of_le (s : State) (h : s.pc.toNat ≤ 4094) :
    fetchWord s = some (wordOfBytes (s.mem.read s.pc.toNat) (s.mem.read (s.pc.toNat + 1))) := if_pos h

theorem fetchWord_of_gt (s : State) (h : 4094 < s.pc.toNat) : fetchWord s = none := if_neg (Nat.not_le_of_gt h)

/-- The fetch reads `PC` and memory and nothing else. -/
theorem fetchWord_congr {s t : State} (hpc : t.pc = s.pc) (hm : t.mem = s.mem) : fetchWord t = fetchWord s := by
  simp only [fetchWord, hpc, hm]

theorem instrAtPC_congr {s t : State} (hpc : t.pc = s.pc) (hm : t.mem = s.mem) : instrAtPC t = instrAtPC s := by
  simp only [instrAtPC, fetchWord_congr hpc hm]

/-- The placed instruction is what the next step fetches. -/
theorem fetchWord_placeAtPC (s : State) (hi lo : Byte) :
    fetchWord (placeAtPC s [hi, lo]) = some (wordOfBytes hi lo) := by
  by_cases h : s.pc.toNat ≤ 4094
  · rw [fetchWord_of_le _ (by simp [placeAtPC, h])]
    simp [placeAtPC, h, Memory.writeBytes, Memory.read_write]
  · rw [fetchWord_of_le _ (by simp [placeAtPC, h, Config.progBase])]
    simp [placeAtPC, h, Memory.writeBytes, Memory.read_write, Config.progBase]

theorem placeAtPC_fault (s : State) (bs : List Byte) : (placeAtPC s bs).fault = .noFault := rfl

/-! ### Memory operands -/

theorem accessFits_iff (s : State) (count : Nat) :
    accessFits s count = true ↔ count = 0 ∨ s.i.toNat + (count - 1) ≤ 0xFFF := by
  unfold accessFits
  rw [Bool.or_eq_true, beq_iff_eq, decide_eq_true_iff]
  rfl

/-- An access that fits and has an element ends at or below address 4095. -/
theorem accessFits_end {s : State} {count : Nat} (h : accessFits s count = true) (hpos : 0 < count) :
    base s + count ≤ Config.memSize := by
  rcases (accessFits_iff s count).mp h with h | h
  · omega
  · simp only [base, Config.memSize]; omega

@[simp] theorem loadElements_length (s : State) (count : Nat) : (loadElements s count).length = count :=
  Memory.readBytes_length _ _ _

theorem loadElements_getElem (s : State) (count k : Nat) (h : k < (loadElements s count).length) :
    (loadElements s count)[k] = s.mem.read (s.i.toNat + k) :=
  Memory.readBytes_getElem _ _ _ _ h

@[simp] theorem bcdDigits_length (b : Byte) : (bcdDigits b).length = 3 := rfl

@[simp] theorem regsUpTo_length (s : State) (x : Reg) : (regsUpTo s x).length = x.val + 1 := by
  have := x.isLt
  simp [regsUpTo]

theorem regsUpTo_getElem (s : State) (x k : Reg) (h : k ≤ x) :
    (regsUpTo s x)[k.val]'(by rw [regsUpTo_length]; exact Nat.lt_succ_of_le h) = s.reg k := by
  simp [regsUpTo, State.reg]

theorem regsLoaded_getElem (s : State) (x k : Reg) :
    (regsLoaded s x)[k] = if k ≤ x then s.mem.read (s.i.toNat + k.val) else s.reg k := by
  simp [regsLoaded, base]

/-! ### Keys -/

theorem keyIndex_eq_some_iff (b : Byte) (k : Fin 16) : keyIndex b = some k ↔ b.toNat = k.val := by
  unfold keyIndex
  split
  · simp [Fin.ext_iff]
  · have := k.isLt
    simp only [reduceCtorEq, false_iff]; omega

theorem keyIndex_eq_none_iff (b : Byte) : keyIndex b = none ↔ 15 < b.toNat := by
  unfold keyIndex
  split
  · simp only [reduceCtorEq, false_iff]; omega
  · simp only [true_iff]; omega

theorem mem_keyNumbers : ∀ k : Fin 16, k ∈ keyNumbers := by decide

theorem keyNumbers_sorted : keyNumbers.Pairwise (· < ·) := by decide

theorem lowestKey_eq_none_iff (key : Vector Bool 16) : lowestKey key = none ↔ ∀ k : Fin 16, key[k] = false := by
  simp [lowestKey, List.find?_eq_none, mem_keyNumbers]

theorem lowestKey_eq_some_iff (key : Vector Bool 16) (k : Fin 16) :
    lowestKey key = some k ↔ key[k] = true ∧ ∀ j : Fin 16, j < k → key[j] = false := by
  unfold lowestKey
  rw [List.find?_eq_some_iff_append]
  constructor
  · rintro ⟨hk, as, bs, heq, has⟩
    refine ⟨hk, fun j hj => ?_⟩
    have hsorted := keyNumbers_sorted
    have hj' := mem_keyNumbers j
    rw [heq] at hsorted hj'
    rcases List.mem_append.mp hj' with h | h
    · simpa using has j h
    · rcases List.mem_cons.mp h with h | h
      · exact absurd h (Fin.ne_of_lt hj)
      · have := (List.pairwise_cons.mp (List.pairwise_append.mp hsorted).2.1).1 j h
        exact absurd this (Fin.lt_asymm hj)
  · rintro ⟨hk, hlow⟩
    obtain ⟨as, bs, heq⟩ := List.append_of_mem (mem_keyNumbers k)
    refine ⟨hk, as, bs, heq, fun j hj => ?_⟩
    have hsorted := keyNumbers_sorted
    rw [heq] at hsorted
    have : j < k := (List.pairwise_append.mp hsorted).2.2 j hj k (by simp)
    simpa using hlow j this

theorem keyByte_toNat (k : Fin 16) : (keyByte k).toNat = k.val := by
  have := k.isLt
  simp only [keyByte, BitVec.toNat_ofNat]; omega

/-! ### Flags -/

theorem flagByte_eq (f : Bool) : flagByte f = if f = true then 1 else 0 := by cases f <;> rfl

/-- The flag-writing end, read back: the result in `V[x]`, the flag in `VF` unless the result overwrote it. -/
theorem State.reg_setFlagged (s : State) (x r : Reg) (flag : Bool) (result : Byte) :
    (s.setFlagged x flag result).reg r = if r = x then result else if r = VF then flagByte flag else s.reg r := by
  simp only [State.setFlagged, State.reg_setReg]

/-- A flag-writing end changes nothing but the register file. -/
theorem State.setFlagged_eq (s : State) (x : Reg) (flag : Bool) (result : Byte) :
    s.setFlagged x flag result = s.setV ((s.v.set VF (flagByte flag)).set x result) := rfl

/-! ### Display -/

theorem pixel_blankScreen (y : Fin 32) (x : Fin 64) : blankScreen[y][x] = false := by
  simp [blankScreen]

end Sys2Proof.Machine
end

