-- ==== Sys2Proof/Laws/Step.lean ====
section
/-! SUPPORT. The STEP taken apart (40_step_cycle.md R108): what it is in each of its cases, and its inversion. -/

namespace Sys2Proof.Machine

/-- A halted engine does nothing (R106). -/
theorem step_of_halted {s : State} (h : s.fault ≠ .noFault) : step s = .next s := by
  simp only [step, (State.halted_eq_true_iff s).mpr h, if_true]

/-- The fetch fault (R101). -/
theorem step_of_fetch_none {s : State} (h : s.fault = .noFault) (hf : fetchWord s = none) :
    step s = raise .fetchOutOfBounds s := by
  simp only [step, (State.halted_eq_false_iff s).mpr h, hf, Bool.false_eq_true, if_false]

/-- A fetched word is decoded and executed (R102, R103). -/
theorem step_of_fetch_some {s : State} {op : Word} (h : s.fault = .noFault) (hf : fetchWord s = some op) :
    step s = execWord op s := by
  simp only [step, (State.halted_eq_false_iff s).mpr h, hf, Bool.false_eq_true, if_false]

theorem execWord_of_some {op : Word} {i : Instr} (s : State) (h : decode op = some i) : execWord op s = exec i s := by
  simp only [execWord, h]

theorem execWord_of_none {op : Word} (s : State) (h : decode op = none) : execWord op s = .next s.next := by
  simp only [execWord, h, execUnknown]

theorem instrAtPC_eq_some_iff (s : State) (i : Instr) :
    instrAtPC s = some i ↔ ∃ op, fetchWord s = some op ∧ decode op = some i := by
  simp [instrAtPC, Option.bind_eq_some_iff]

/-- The inversion of a STEP: whatever it answers, it was halted, or the fetch faulted, or the word was unknown, or the
instruction at `PC` executed. -/
theorem step_cases {s : State} {r : Result} (h : step s = r) :
    (s.fault ≠ .noFault ∧ r = .next s) ∨
    (s.fault = .noFault ∧ 4094 < s.pc.toNat ∧ r = raise .fetchOutOfBounds s) ∨
    (s.fault = .noFault ∧ s.pc.toNat ≤ 4094 ∧ instrAtPC s = none ∧ r = .next s.next) ∨
    (s.fault = .noFault ∧ s.pc.toNat ≤ 4094 ∧ ∃ i, instrAtPC s = some i ∧ r = exec i s) := by
  subst h
  by_cases hf : s.fault = .noFault
  · by_cases hpc : s.pc.toNat ≤ 4094
    · have hw := fetchWord_of_le s hpc
      cases hd : decode (wordOfBytes (s.mem.read s.pc.toNat) (s.mem.read (s.pc.toNat + 1))) with
      | none =>
        refine .inr (.inr (.inl ⟨hf, hpc, by simp only [instrAtPC, hw, Option.bind_some, hd], ?_⟩))
        rw [step_of_fetch_some hf hw, execWord_of_none s hd]
      | some i =>
        refine .inr (.inr (.inr ⟨hf, hpc, i, by simp only [instrAtPC, hw, Option.bind_some, hd], ?_⟩))
        rw [step_of_fetch_some hf hw, execWord_of_some s hd]
    · exact .inr (.inl ⟨hf, by omega, step_of_fetch_none hf (fetchWord_of_gt s (by omega))⟩)
  · exact .inl ⟨hf, step_of_halted hf⟩

/-- The next step from a state with a placed word executes that word. -/
theorem step_withFetchWord (s : State) (nbits w : Nat) :
    step (s.withFetchWord nbits w) = execWord (BitVec.ofNat 16 (w % 2 ^ nbits)) (s.withFetchWord nbits w) := by
  have hf : fetchWord (s.withFetchWord nbits w) = some (BitVec.ofNat 16 (w % 2 ^ nbits)) := by
    unfold State.withFetchWord tableBytes
    rw [fetchWord_placeAtPC, wordOfBytes_high_low]
  exact step_of_fetch_some rfl hf

end Sys2Proof.Machine
end

