-- ==== Sys2Proof/Laws/Frames.lean ====
section
/-! SUPPORT. The frames of the shared endings: what each way of ending an instruction leaves unchanged, said once. -/

namespace Sys2Proof.Machine

theorem OnlyRegs.complete (s : State) (pc : Word) : OnlyRegs [] s (s.complete pc) :=
  ⟨fun _ _ => rfl, rfl, fun _ => rfl, ⟨rfl, fun _ => rfl⟩, ⟨rfl, rfl⟩, ⟨fun _ _ => rfl, rfl⟩, fun _ => rfl, rfl, rfl⟩

theorem OnlyRegs.next (s : State) : OnlyRegs [] s s.next := OnlyRegs.complete s _

theorem OnlyRegs.skipIf (s : State) (c : Bool) : OnlyRegs [] s (s.skipIf c) := by
  rw [State.skipIf_eq]; exact OnlyRegs.complete s _

/-- A new register file that agrees outside the listed registers, then `next`. -/
theorem OnlyRegs.setV_next (s : State) (v : Vector Byte 16) (ds : List Reg) (h : ∀ r : Reg, r ∉ ds → v[r] = s.reg r) :
    OnlyRegs ds s (s.setV v).next :=
  ⟨h, rfl, fun _ => rfl, ⟨rfl, fun _ => rfl⟩, ⟨rfl, rfl⟩, ⟨fun _ _ => rfl, rfl⟩, fun _ => rfl, rfl, rfl⟩

theorem OnlyRegs.setReg_next (s : State) (x : Reg) (b : Byte) : OnlyRegs [x] s (s.setReg x b).next :=
  OnlyRegs.setV_next s _ _ fun r hr => State.reg_setReg_ne s x r b (by simpa using hr)

theorem OnlyRegs.setFlagged_next (s : State) (x : Reg) (f : Bool) (b : Byte) :
    OnlyRegs [x, VF] s (s.setFlagged x f b).next :=
  OnlyRegs.setV_next s _ _ fun r hr => by
    have hr' : r ≠ x ∧ r ≠ VF := by simpa using hr
    have h := State.reg_setFlagged s x r f b
    rw [if_neg hr'.1, if_neg hr'.2] at h
    exact h

theorem OnlyIndex.setI_next (s : State) (a : Word) : OnlyIndex s (s.setI a).next :=
  ⟨fun _ _ => rfl, fun _ => rfl, ⟨rfl, fun _ => rfl⟩, ⟨rfl, rfl⟩, ⟨fun _ _ => rfl, rfl⟩, fun _ => rfl, rfl, rfl⟩

theorem OnlyBytes.storeElements_next (s : State) (bs : List Byte) :
    OnlyBytes (base s) bs.length s (storeElements s bs).next :=
  ⟨fun _ _ => rfl, rfl, fun _ hb => Memory.read_writeBytes_outside _ _ _ _ hb, ⟨rfl, fun _ => rfl⟩, ⟨rfl, rfl⟩,
    ⟨fun _ _ => rfl, rfl⟩, fun _ => rfl, rfl, rfl⟩

theorem OnlyTimers.setDT_next (s : State) (b : Byte) : OnlyTimers s (s.setDT b).next :=
  ⟨fun _ _ => rfl, rfl, fun _ => rfl, ⟨rfl, fun _ => rfl⟩, ⟨fun _ _ => rfl, rfl⟩, fun _ => rfl, rfl, rfl⟩

theorem OnlyTimers.setST_next (s : State) (b : Byte) : OnlyTimers s (s.setST b).next :=
  ⟨fun _ _ => rfl, rfl, fun _ => rfl, ⟨rfl, fun _ => rfl⟩, ⟨fun _ _ => rfl, rfl⟩, fun _ => rfl, rfl, rfl⟩

theorem OnlyScreen.paint_next (s : State) (fb : Framebuffer) : OnlyScreen [] s (s.paint fb).next :=
  ⟨fun _ _ => rfl, rfl, fun _ => rfl, ⟨rfl, fun _ => rfl⟩, ⟨rfl, rfl⟩, fun _ => rfl, rfl, rfl⟩

theorem OnlyScreen.setReg_paint_next (s : State) (x : Reg) (b : Byte) (fb : Framebuffer) :
    OnlyScreen [x] s ((s.setReg x b).paint fb).next :=
  ⟨fun r hr => State.reg_setReg_ne s x r b (by simpa using hr), rfl, fun _ => rfl, ⟨rfl, fun _ => rfl⟩, ⟨rfl, rfl⟩,
    fun _ => rfl, rfl, rfl⟩

/-- Taking a fault is precise. -/
theorem FaultsWith.raise (c : Cause) (s : State) : FaultsWith c s (Machine.raise c s) := ⟨_, rfl, rfl, rfl⟩

/-! ### The sprite bits as the claims name them -/

/-- The bits the plotting loop lights, from the bytes `DRW` loads, are those of `spriteLights`. -/
theorem spriteBit_loadElements (s : State) (x y : Reg) (n : Nat) (py : Fin 32) (px : Fin 64) :
    spriteBit ((s.reg x).toNat % 64) ((s.reg y).toNat % 32) (loadElements s n) py px = spriteLights s x y n py px := by
  unfold spriteBit spriteLights
  simp only [loadElements_length, rowFrom, colFrom, Nat.mod_mod]
  by_cases h : (py.val + 32 - (s.reg y).toNat % 32) % 32 < n
  · rw [List.getD_eq_getElem _ _ (by simpa using h), loadElements_getElem]
  · simp [h]

/-! ### Stored code -/

/-- What `LD [I],Vx` leaves in memory, byte by byte. -/
theorem read_storeElements_regsUpTo (s : State) (x : Reg) (a : Nat) :
    (storeElements s (regsUpTo s x)).mem.read a = registerStoreByte x s a := by
  simp only [storeElements, State.setMem, registerStoreByte]
  split
  next h =>
    obtain ⟨k, rfl⟩ := Nat.exists_eq_add_of_le h.1
    have hk : k < (regsUpTo s x).length := by rw [regsUpTo_length]; omega
    have hx := x.isLt
    rw [Memory.read_writeBytes_mem _ _ _ _ hk]
    have := regsUpTo_getElem s x ⟨k, by omega⟩ (Fin.mk_le_of_le_val (by omega))
    simpa using this
  next h => exact Memory.read_writeBytes_outside _ _ _ _ (by rw [regsUpTo_length]; omega)

/-- What `LD B,Vx` leaves in memory, byte by byte. -/
theorem read_storeElements_bcdDigits (s : State) (x : Reg) (a : Nat) :
    (storeElements s (bcdDigits (s.reg x))).mem.read a = decimalStoreByte x s a := by
  have hmem (k : Nat) (hk : k < 3) := Memory.read_writeBytes_mem s.mem (base s) k (bcdDigits (s.reg x)) hk
  simp only [storeElements, State.setMem, decimalStoreByte]
  split_ifs with h0 h1 h2
  · subst h0; exact hmem 0 (by decide)
  · subst h1; exact hmem 1 (by decide)
  · subst h2; exact hmem 2 (by decide)
  · exact Memory.read_writeBytes_outside _ _ _ _ (by rw [bcdDigits_length]; omega)

/-- A fetched word is run by the STEP. -/
theorem RunsWord.of_fetchWord {u : State} {op : Word} (h : fetchWord u = some op) : RunsWord u op :=
  ⟨h, fun hf => ⟨fun _ hd => (step_of_fetch_some hf h).trans (execWord_of_some u hd),
    fun hd => (step_of_fetch_some hf h).trans (execWord_of_none u hd)⟩⟩

/-! ### The transactions -/

theorem resetLoad_of_le (draws : Nat) {rom : List Byte} (h : rom.length ≤ 3584) :
    resetLoad draws rom = loadedState draws rom := if_pos h

theorem resetLoad_of_gt (draws : Nat) {rom : List Byte} (h : 3584 < rom.length) :
    resetLoad draws rom = rejectedState draws := if_neg (Nat.not_le_of_gt h)

/-- A STEP that answers a next state, as a transaction. -/
theorem stepTransaction_of_next {s t : State} (h : step s = .next t) :
    stepTransaction s = (t, .stepped (stepReport s t)) := by
  simp only [stepTransaction, h]

end Sys2Proof.Machine
end

