-- ==== Sys2Proof/Laws/PerInstr.lean ====
section
/-! SUPPORT. The family `InItsRow`, one lemma per constructor: the encoding of an instruction matches the row of the
opcode map (30_encoding.md R76) that bears its mnemonic. -/

namespace Sys2Proof.Laws.InItsRow

/-- The encoding lies in the row of its own mnemonic. -/
def Statement (i : Instr) : Prop := ∃ row ∈ opcodeRows, row.mnemonic = i.mnemonic ∧ row.matches (encode i) = true

/-- A row under the mask of a whole top nibble. -/
theorem of_F000 {i : Instr} (m : String) (v : Word) (hm : m = i.mnemonic)
    (hrow : (⟨m, 0xF000, v⟩ : OpcodeRow) ∈ opcodeRows)
    (hv : v &&& 0xF000 = v) (ht : fieldTop (encode i) = fieldTop v) : Statement i :=
  ⟨_, hrow, hm, by simpa [OpcodeRow.matches] using (and_F000_eq (encode i) v hv).mpr ht⟩

/-- A row selected by `nn`. -/
theorem of_F0FF {i : Instr} (m : String) (v : Word) (hm : m = i.mnemonic)
    (hrow : (⟨m, 0xF0FF, v⟩ : OpcodeRow) ∈ opcodeRows)
    (hv : v &&& 0xF0FF = v) (ht : fieldTop (encode i) = fieldTop v) (hn : fieldNn (encode i) = fieldNn v) :
    Statement i :=
  ⟨_, hrow, hm, by simpa [OpcodeRow.matches] using (and_F0FF_eq (encode i) v hv).mpr ⟨ht, hn⟩⟩

/-- A row selected by `n`. -/
theorem of_F00F {i : Instr} (m : String) (v : Word) (hm : m = i.mnemonic)
    (hrow : (⟨m, 0xF00F, v⟩ : OpcodeRow) ∈ opcodeRows)
    (hv : v &&& 0xF00F = v) (ht : fieldTop (encode i) = fieldTop v) (hn : fieldN (encode i) = fieldN v) :
    Statement i :=
  ⟨_, hrow, hm, by simpa [OpcodeRow.matches] using (and_F00F_eq (encode i) v hv).mpr ⟨ht, hn⟩⟩

theorem cls : Statement .cls :=
  of_F0FF "CLS" 0x00E0 rfl (by decide) (by decide) (fieldTop_formatXB _ _ _) (fieldNn_formatXB _ _ _)

theorem ret : Statement .ret :=
  of_F0FF "RET" 0x00EE rfl (by decide) (by decide) (fieldTop_formatXB _ _ _) (fieldNn_formatXB _ _ _)

theorem jp (nnn : Addr) : Statement (.jp nnn) :=
  of_F000 "JP_nnn" 0x1000 rfl (by decide) (by decide) (fieldTop_formatA _ _)

theorem call (nnn : Addr) : Statement (.call nnn) :=
  of_F000 "CALL_nnn" 0x2000 rfl (by decide) (by decide) (fieldTop_formatA _ _)

theorem seVxNn (x : Reg) (nn : Byte) : Statement (.seVxNn x nn) :=
  of_F000 "SE_Vx_nn" 0x3000 rfl (by decide) (by decide) (fieldTop_formatXB _ _ _)

theorem sneVxNn (x : Reg) (nn : Byte) : Statement (.sneVxNn x nn) :=
  of_F000 "SNE_Vx_nn" 0x4000 rfl (by decide) (by decide) (fieldTop_formatXB _ _ _)

theorem seVxVy (x y : Reg) : Statement (.seVxVy x y) :=
  of_F000 "SE_Vx_Vy" 0x5000 rfl (by decide) (by decide) (fieldTop_formatXYN _ _ _ _)

theorem ldVxNn (x : Reg) (nn : Byte) : Statement (.ldVxNn x nn) :=
  of_F000 "LD_Vx_nn" 0x6000 rfl (by decide) (by decide) (fieldTop_formatXB _ _ _)

theorem addVxNn (x : Reg) (nn : Byte) : Statement (.addVxNn x nn) :=
  of_F000 "ADD_Vx_nn" 0x7000 rfl (by decide) (by decide) (fieldTop_formatXB _ _ _)

theorem ldVxVy (x y : Reg) : Statement (.ldVxVy x y) :=
  of_F00F "LD_Vx_Vy" 0x8000 rfl (by decide) (by decide) (fieldTop_formatXYN _ _ _ _) (fieldN_formatXYN _ _ _ _)

theorem orVxVy (x y : Reg) : Statement (.orVxVy x y) :=
  of_F00F "OR_Vx_Vy" 0x8001 rfl (by decide) (by decide) (fieldTop_formatXYN _ _ _ _) (fieldN_formatXYN _ _ _ _)

theorem andVxVy (x y : Reg) : Statement (.andVxVy x y) :=
  of_F00F "AND_Vx_Vy" 0x8002 rfl (by decide) (by decide) (fieldTop_formatXYN _ _ _ _) (fieldN_formatXYN _ _ _ _)

theorem xorVxVy (x y : Reg) : Statement (.xorVxVy x y) :=
  of_F00F "XOR_Vx_Vy" 0x8003 rfl (by decide) (by decide) (fieldTop_formatXYN _ _ _ _) (fieldN_formatXYN _ _ _ _)

theorem addVxVy (x y : Reg) : Statement (.addVxVy x y) :=
  of_F00F "ADD_Vx_Vy" 0x8004 rfl (by decide) (by decide) (fieldTop_formatXYN _ _ _ _) (fieldN_formatXYN _ _ _ _)

theorem subVxVy (x y : Reg) : Statement (.subVxVy x y) :=
  of_F00F "SUB_Vx_Vy" 0x8005 rfl (by decide) (by decide) (fieldTop_formatXYN _ _ _ _) (fieldN_formatXYN _ _ _ _)

theorem shrVx (x y : Reg) : Statement (.shrVx x y) :=
  of_F00F "SHR_Vx" 0x8006 rfl (by decide) (by decide) (fieldTop_formatXYN _ _ _ _) (fieldN_formatXYN _ _ _ _)

theorem subnVxVy (x y : Reg) : Statement (.subnVxVy x y) :=
  of_F00F "SUBN_Vx_Vy" 0x8007 rfl (by decide) (by decide) (fieldTop_formatXYN _ _ _ _) (fieldN_formatXYN _ _ _ _)

theorem shlVx (x y : Reg) : Statement (.shlVx x y) :=
  of_F00F "SHL_Vx" 0x800E rfl (by decide) (by decide) (fieldTop_formatXYN _ _ _ _) (fieldN_formatXYN _ _ _ _)

theorem sneVxVy (x y : Reg) : Statement (.sneVxVy x y) :=
  of_F000 "SNE_Vx_Vy" 0x9000 rfl (by decide) (by decide) (fieldTop_formatXYN _ _ _ _)

theorem ldINnn (nnn : Addr) : Statement (.ldINnn nnn) :=
  of_F000 "LD_I_nnn" 0xA000 rfl (by decide) (by decide) (fieldTop_formatA _ _)

theorem jpV0 (nnn : Addr) : Statement (.jpV0 nnn) :=
  of_F000 "JP_V0_nnn" 0xB000 rfl (by decide) (by decide) (fieldTop_formatA _ _)

theorem rnd (x : Reg) (nn : Byte) : Statement (.rnd x nn) :=
  of_F000 "RND_Vx_nn" 0xC000 rfl (by decide) (by decide) (fieldTop_formatXB _ _ _)

theorem drw (x y : Reg) (n : Nibble) : Statement (.drw x y n) :=
  of_F000 "DRW_Vx_Vy_n" 0xD000 rfl (by decide) (by decide) (fieldTop_formatXYN _ _ _ _)

theorem skp (x : Reg) : Statement (.skp x) :=
  of_F0FF "SKP_Vx" 0xE09E rfl (by decide) (by decide) (fieldTop_formatXB _ _ _) (fieldNn_formatXB _ _ _)

theorem sknp (x : Reg) : Statement (.sknp x) :=
  of_F0FF "SKNP_Vx" 0xE0A1 rfl (by decide) (by decide) (fieldTop_formatXB _ _ _) (fieldNn_formatXB _ _ _)

theorem ldVxDT (x : Reg) : Statement (.ldVxDT x) :=
  of_F0FF "LD_Vx_DT" 0xF007 rfl (by decide) (by decide) (fieldTop_formatXB _ _ _) (fieldNn_formatXB _ _ _)

theorem ldVxK (x : Reg) : Statement (.ldVxK x) :=
  of_F0FF "LD_Vx_K" 0xF00A rfl (by decide) (by decide) (fieldTop_formatXB _ _ _) (fieldNn_formatXB _ _ _)

theorem ldDTVx (x : Reg) : Statement (.ldDTVx x) :=
  of_F0FF "LD_DT_Vx" 0xF015 rfl (by decide) (by decide) (fieldTop_formatXB _ _ _) (fieldNn_formatXB _ _ _)

theorem ldSTVx (x : Reg) : Statement (.ldSTVx x) :=
  of_F0FF "LD_ST_Vx" 0xF018 rfl (by decide) (by decide) (fieldTop_formatXB _ _ _) (fieldNn_formatXB _ _ _)

theorem addIVx (x : Reg) : Statement (.addIVx x) :=
  of_F0FF "ADD_I_Vx" 0xF01E rfl (by decide) (by decide) (fieldTop_formatXB _ _ _) (fieldNn_formatXB _ _ _)

theorem ldFVx (x : Reg) : Statement (.ldFVx x) :=
  of_F0FF "LD_F_Vx" 0xF029 rfl (by decide) (by decide) (fieldTop_formatXB _ _ _) (fieldNn_formatXB _ _ _)

theorem ldBVx (x : Reg) : Statement (.ldBVx x) :=
  of_F0FF "LD_B_Vx" 0xF033 rfl (by decide) (by decide) (fieldTop_formatXB _ _ _) (fieldNn_formatXB _ _ _)

theorem ldIVx (x : Reg) : Statement (.ldIVx x) :=
  of_F0FF "LD__I__Vx" 0xF055 rfl (by decide) (by decide) (fieldTop_formatXB _ _ _) (fieldNn_formatXB _ _ _)

theorem ldVxI (x : Reg) : Statement (.ldVxI x) :=
  of_F0FF "LD_Vx__I" 0xF065 rfl (by decide) (by decide) (fieldTop_formatXB _ _ _) (fieldNn_formatXB _ _ _)

end Sys2Proof.Laws.InItsRow
end

