-- ==== Sys2Proof/Tests/Slice0.lean ====
section
/-! SUPPORT. Tests of the model, each one STEP on a small state, their expected results taken from spec/95_test_vectors.md
(the vector's id is named) or from the rules' own examples; the smoke tests of `wellFormed`; and the witnesses that the
hypotheses of the obligations can be met, at the values where their clauses meet. -/

namespace Sys2Proof.Tests

open Sys2Proof.Machine

/-! ### Helpers -/

/-- The reset state with V registers set. -/
def withRegs (rs : List (Reg × Byte)) (s : State := State.reset) : State := rs.foldl (fun t r => t.setReg r.1 r.2) s

/-- The state with bytes stored from an address on. -/
def withBytes (a : Nat) (bs : List Byte) (s : State) : State := s.setMem (s.mem.writeBytes a bs)

/-- The state with a word stored where the next STEP fetches. -/
def withWord (op : Word) (s : State) : State := placeAtPC s [highByte op, lowByte op]

/-- The state with the listed keys pressed. -/
def withKeys (ks : List (Fin 16)) (s : State) : State := { s with key := Vector.ofFn fun k => ks.contains k }

/-- The state with the listed pixels, given as (row, column), set. -/
def withPixels (ps : List (Fin 32 × Fin 64)) (s : State) : State :=
  { s with fb := ps.foldl (fun fb p => fb.set p.1 (fb[p.1].set p.2 true)) s.fb }

/-- What one STEP of the word leaves, through a reading of the state. -/
def after {α : Type} (op : Word) (s : State) (f : State → α) : Option α :=
  match step (withWord op s) with
  | .next t => some (f t)
  | .fault _ => none
  | .refused _ => none

/-- The word's STEP faults with the cause and leaves everything else as it was. -/
def FaultsPrecisely (op : Word) (s : State) (c : Cause) : Prop :=
  step (withWord op s) = .next { withWord op s with fault := c }

/-- Some pixels, given as (row, column), read in order. -/
def pixels (ps : List (Fin 32 × Fin 64)) (s : State) : List Bool := ps.map fun p => s.pixel p.1 p.2

/-! ### Well-formed instructions (R74: canonical words) -/

theorem test_wellFormed_shr : wellFormed (.shrVx 1 0) = true ∧ wellFormed (.shrVx 1 2) = false := by decide
theorem test_wellFormed_shl : wellFormed (.shlVx 1 0) = true ∧ wellFormed (.shlVx 1 0xF) = false := by decide
theorem test_wellFormed_others : wellFormed .cls = true ∧ wellFormed (.drw 1 2 0) = true := by decide

/-! ### Decoding: a word of every constructor, written out from its row of R76 -/

theorem test_decode_flow :
    decodeBytes [0b00000000, 0b11101110] = .ok (.ret, []) ∧
    decodeBytes [0b00010010, 0b00110100] = .ok (.jp 0x234, []) ∧
    decodeBytes [0b00101010, 0b10111100] = .ok (.call 0xABC, []) ∧
    decodeBytes [0b00110011, 0b00101010] = .ok (.seVxNn 3 0x2A, []) ∧
    decodeBytes [0b01000011, 0b00101010] = .ok (.sneVxNn 3 0x2A, []) ∧
    decodeBytes [0b01010001, 0b00100000] = .ok (.seVxVy 1 2, []) ∧
    decodeBytes [0b10010001, 0b00100000] = .ok (.sneVxVy 1 2, []) ∧
    decodeBytes [0b10110011, 0b00000001] = .ok (.jpV0 0x301, []) := by decide

theorem test_decode_alu :
    decodeBytes [0b01100000, 0b00001010] = .ok (.ldVxNn 0 0x0A, []) ∧
    decodeBytes [0b01110010, 0b00000101] = .ok (.addVxNn 2 5, []) ∧
    decodeBytes [0b11000001, 0b00001111] = .ok (.rnd 1 0x0F, []) ∧
    decodeBytes [0b10000001, 0b01000000] = .ok (.ldVxVy 1 4, []) ∧
    decodeBytes [0b10000001, 0b00100001] = .ok (.orVxVy 1 2, []) ∧
    decodeBytes [0b10000001, 0b00100010] = .ok (.andVxVy 1 2, []) ∧
    decodeBytes [0b10000001, 0b00100011] = .ok (.xorVxVy 1 2, []) := by decide

theorem test_decode_alu_flagged :
    decodeBytes [0b10000000, 0b00010100] = .ok (.addVxVy 0 1, []) ∧
    decodeBytes [0b10000001, 0b00100101] = .ok (.subVxVy 1 2, []) ∧
    decodeBytes [0b10000001, 0b00000110] = .ok (.shrVx 1 0, []) ∧
    decodeBytes [0b10000001, 0b00100111] = .ok (.subnVxVy 1 2, []) ∧
    decodeBytes [0b10000001, 0b00001110] = .ok (.shlVx 1 0, []) := by decide

theorem test_decode_index :
    decodeBytes [0b10100010, 0b11110000] = .ok (.ldINnn 0x2F0, []) ∧
    decodeBytes [0b11110010, 0b00011110] = .ok (.addIVx 2, []) ∧
    decodeBytes [0b11110001, 0b00101001] = .ok (.ldFVx 1, []) ∧
    decodeBytes [0b11110001, 0b00110011] = .ok (.ldBVx 1, []) ∧
    decodeBytes [0b11111111, 0b01010101] = .ok (.ldIVx 0xF, []) ∧
    decodeBytes [0b11110010, 0b01100101] = .ok (.ldVxI 2, []) := by decide

theorem test_decode_display_keys_timers :
    decodeBytes [0b00000000, 0b11100000] = .ok (.cls, []) ∧
    decodeBytes [0b11010001, 0b00101111] = .ok (.drw 1 2 0xF, []) ∧
    decodeBytes [0b11100001, 0b10011110] = .ok (.skp 1, []) ∧
    decodeBytes [0b11100001, 0b10100001] = .ok (.sknp 1, []) ∧
    decodeBytes [0b11110101, 0b00000111] = .ok (.ldVxDT 5, []) ∧
    decodeBytes [0b11110001, 0b00001010] = .ok (.ldVxK 1, []) ∧
    decodeBytes [0b11110101, 0b00010101] = .ok (.ldDTVx 5, []) ∧
    decodeBytes [0b11110101, 0b00011000] = .ok (.ldSTVx 5, []) := by decide

/-- Ignored bits (C16, C17, X2, A33, A40) and unknown words (C19 to C24). -/
theorem test_decode_ignored_bits :
    decode 0x5121 = some (.seVxVy 1 2) ∧ decode 0x9125 = some (.sneVxVy 1 2) ∧ decode 0x03E0 = some .cls ∧
    decode 0x8126 = some (.shrVx 1 2) ∧ decode 0x812E = some (.shlVx 1 2) := by decide

theorem test_decode_unknown :
    decode 0x00E1 = none ∧ decode 0x8128 = none ∧ decode 0xE19F = none ∧ decode 0xF1FF = none ∧
    decode 0x0123 = none ∧ decode 0x0000 = none := by decide

/-! ### The step cycle -/

/-- C1 to C4: a fetch above 4094. -/
theorem test_fetch_above_memory :
    step { State.reset with pc := 0x0FFF } = .next { State.reset with pc := 0x0FFF, fault := .fetchOutOfBounds } ∧
    step { State.reset with pc := 0x10FE } = .next { State.reset with pc := 0x10FE, fault := .fetchOutOfBounds } := by
  constructor <;> rfl

/-- C19, C24: an unknown word. -/
theorem test_unknown_word :
    after 0x00E1 State.reset id = some { withWord 0x00E1 State.reset with pc := 0x0202 } ∧
    step State.reset = .next { State.reset with pc := 0x0202 } ∧
    stepReport State.reset { State.reset with pc := 0x0202 } = .completed (some { op := 0, pc := 0x0200 }) := by
  refine ⟨by decide, rfl, by decide⟩

/-- C25: halted. -/
theorem test_halted :
    step { State.reset with fault := .stackUnderflow } = .next { State.reset with fault := .stackUnderflow } := rfl

/-! ### Control flow -/

/-- R122 example, C1. -/
theorem test_jp : after 0x1234 State.reset (·.pc) = some 0x0234 ∧ after 0x1FFF State.reset (·.pc) = some 0x0FFF := by
  decide

/-- C2, and R128's example (`V0 = 4`, `B300`). -/
theorem test_jpV0 : after 0xBFFF (withRegs [(0, 0xFF)]) (·.pc) = some 0x10FE ∧
    after 0xB300 (withRegs [(0, 0x04), (3, 0x55)]) (·.pc) = some 0x0304 := by decide

/-- C5. -/
theorem test_call : after 0x2ABC { State.reset with pc := 0x0300, sp := 15 } (fun t => (t.slot 15, t.sp.val, t.pc)) =
    some (0x0302, 16, 0x0ABC) := by decide

/-- C6. -/
theorem test_call_full : FaultsPrecisely 0x2ABC { State.reset with pc := 0x0300, sp := 16 } .stackOverflow := rfl

/-- C7. -/
theorem test_ret : after 0x00EE
    { State.reset with pc := 0x0300, sp := 2, stack := (State.reset.stack.set 0 0x0204).set 1 0x02F0 }
    (fun t => (t.sp.val, t.pc, t.slot 0, t.slot 1)) = some (1, 0x02F0, 0x0204, 0x02F0) := by decide

/-- C8. -/
theorem test_ret_empty : FaultsPrecisely 0x00EE State.reset .stackUnderflow := rfl

/-- C9 to C12. -/
theorem test_se_byte : after 0x3107 (withRegs [(1, 7)]) (·.pc) = some 0x0204 ∧
    after 0x3108 (withRegs [(1, 7)]) (·.pc) = some 0x0202 := by decide

theorem test_sne_byte : after 0x4107 (withRegs [(1, 7)]) (·.pc) = some 0x0202 ∧
    after 0x4108 (withRegs [(1, 7)]) (·.pc) = some 0x0204 := by decide

/-- C13 to C15. -/
theorem test_se_reg : after 0x5120 (withRegs [(1, 7), (2, 7)]) (·.pc) = some 0x0204 ∧
    after 0x5120 (withRegs [(1, 7), (2, 8)]) (·.pc) = some 0x0202 := by decide

theorem test_sne_reg : after 0x9120 (withRegs [(1, 7), (2, 7)]) (·.pc) = some 0x0202 ∧
    after 0x9120 (withRegs [(1, 7), (2, 8)]) (·.pc) = some 0x0204 := by decide

/-- C3. -/
theorem test_skip_past_the_end : after 0x3000 { State.reset with pc := 0x0FFE } (·.pc) = some 0x1002 := by decide

/-! ### Registers and arithmetic -/

/-- `V[1]`, `V[2]`, `VF` and `PC` of a state. -/
def alu (t : State) : Byte × Byte × Byte × Word := (t.reg 1, t.reg 2, t.reg VF, t.pc)

/-- A47, C4. -/
theorem test_ld_byte : after 0x6FAB State.reset (·.reg VF) = some 0xAB ∧
    after 0x6011 { State.reset with pc := 0x0FFE } (fun t => (t.reg 0, t.pc)) = some (0x11, 0x1000) := by decide

/-- A12, A12b. -/
theorem test_add_byte : after 0x7101 (withRegs [(1, 0xFF), (VF, 0x55)]) alu = some (0, 0, 0x55, 0x202) ∧
    after 0x7F02 (withRegs [(VF, 0xFF)]) (·.reg VF) = some 0x01 := by decide

/-- A46. -/
theorem test_ld_reg : after 0x8120 (withRegs [(2, 0x5A)]) alu = some (0x5A, 0x5A, 0, 0x202) := by decide

/-- A42 to A45. -/
theorem test_or : after 0x8121 (withRegs [(1, 0xF0), (2, 0x0F), (VF, 0x77)]) alu = some (0xFF, 0x0F, 0x77, 0x202) := by
  decide

theorem test_and : after 0x8122 (withRegs [(1, 0xF3), (2, 0x3C), (VF, 0x77)]) alu = some (0x30, 0x3C, 0x77, 0x202) := by
  decide

theorem test_xor : after 0x8123 (withRegs [(1, 0xF3), (2, 0x3C), (VF, 0x77)]) alu = some (0xCF, 0x3C, 0x77, 0x202) ∧
    after 0x8113 (withRegs [(1, 0xF3)]) (·.reg 1) = some 0 := by decide

/-- A1, A2, A4, A6. -/
theorem test_add : after 0x8124 (withRegs [(1, 0xFF), (2, 1)]) alu = some (0, 1, 1, 0x202) ∧
    after 0x8124 (withRegs [(1, 0xFF), (VF, 9)]) alu = some (0xFF, 0, 0, 0x202) ∧
    after 0x8124 (withRegs [(1, 0x7F), (2, 0x80)]) alu = some (0xFF, 0x80, 0, 0x202) ∧
    after 0x8114 (withRegs [(1, 0x90)]) alu = some (0x20, 0, 1, 0x202) := by decide

/-- A7, A8, A9, A11. -/
theorem test_add_vf : after 0x8F14 (withRegs [(VF, 0xFF), (1, 1)]) (·.reg VF) = some 0 ∧
    after 0x8F14 (withRegs [(VF, 0x10), (1, 0x20)]) (·.reg VF) = some 0x30 ∧
    after 0x81F4 (withRegs [(1, 0xFF), (VF, 1)]) alu = some (0, 0, 1, 0x202) ∧
    after 0x8FF4 (withRegs [(VF, 0x90)]) (·.reg VF) = some 0x20 := by decide

/-- A13 to A16. -/
theorem test_sub : after 0x8125 (withRegs [(1, 0x10), (2, 1)]) alu = some (0x0F, 1, 1, 0x202) ∧
    after 0x8125 (withRegs [(1, 1), (2, 2)]) alu = some (0xFF, 2, 0, 0x202) ∧
    after 0x8125 (withRegs [(1, 7), (2, 7), (VF, 9)]) alu = some (0, 7, 0, 0x202) ∧
    after 0x8125 (withRegs [(2, 0xFF)]) alu = some (1, 0xFF, 0, 0x202) := by decide

/-- A19 to A21. -/
theorem test_sub_vf : after 0x8F15 (withRegs [(VF, 9), (1, 4)]) (·.reg VF) = some 5 ∧
    after 0x81F5 (withRegs [(1, 9), (VF, 4)]) alu = some (5, 0, 1, 0x202) ∧
    after 0x81F5 (withRegs [(1, 4), (VF, 9)]) alu = some (0xFB, 0, 0, 0x202) := by decide

/-- A22 to A24, A27. -/
theorem test_subn : after 0x8127 (withRegs [(1, 0x10), (2, 1)]) alu = some (0xF1, 1, 0, 0x202) ∧
    after 0x8127 (withRegs [(1, 1), (2, 2)]) alu = some (1, 2, 1, 0x202) ∧
    after 0x8127 (withRegs [(1, 7), (2, 7)]) alu = some (0, 7, 0, 0x202) ∧
    after 0x8F17 (withRegs [(VF, 4), (1, 9)]) (·.reg VF) = some 5 := by decide

/-- A28, A32, A33, A34. -/
theorem test_shr : after 0x8106 (withRegs [(1, 0xFF)]) alu = some (0x7F, 0, 1, 0x202) ∧
    after 0x8106 (withRegs [(1, 0x80)]) alu = some (0x40, 0, 0, 0x202) ∧
    after 0x8126 (withRegs [(1, 4), (2, 0xFF)]) alu = some (2, 0xFF, 0, 0x202) ∧
    after 0x8F06 (withRegs [(VF, 5)]) (·.reg VF) = some 2 := by decide

/-- A36, A38, A39, A40, A41. -/
theorem test_shl : after 0x810E (withRegs [(1, 0xFF)]) alu = some (0xFE, 0, 1, 0x202) ∧
    after 0x810E (withRegs [(1, 1)]) alu = some (2, 0, 0, 0x202) ∧
    after 0x810E (withRegs [(1, 0x80)]) alu = some (0, 0, 1, 0x202) ∧
    after 0x812E (withRegs [(1, 4), (2, 0xFF)]) alu = some (8, 0xFF, 0, 0x202) ∧
    after 0x8F0E (withRegs [(VF, 0x81)]) (·.reg VF) = some 2 := by decide

/-- A48 to A50, with the random byte given. -/
theorem test_rnd :
    randomMasked 0xA7 1 0x0F State.reset = .next { withRegs [(1, 0x07)] with pc := 0x202, draws := 1 } ∧
    randomMasked 0xFF 1 0x00 (withRegs [(1, 0x33)]) = .next { State.reset with pc := 0x202, draws := 1 } ∧
    randomMasked 0x5A 1 0xFF State.reset = .next { withRegs [(1, 0x5A)] with pc := 0x202, draws := 1 } := by
  refine ⟨rfl, rfl, rfl⟩

/-! ### Index and memory -/

/-- M1. -/
theorem test_ld_i : after 0xA2F0 State.reset (fun t => (t.i, t.pc)) = some (0x02F0, 0x0202) := by decide

/-- M2 to M4. -/
theorem test_add_i :
    after 0xF11E { withRegs [(1, 1), (VF, 0x77)] with i := 0xFFFF } (fun t => (t.i, t.reg VF)) = some (0, 0x77) ∧
    after 0xF11E { withRegs [(1, 1)] with i := 0x0FFF } (·.i) = some 0x1000 ∧
    after 0xF11E { withRegs [(1, 0xFF)] with i := 0x0F80 } (·.i) = some 0x107F := by decide

/-- M5 to M7. -/
theorem test_ld_f : after 0xF129 (withRegs [(1, 0x0F)]) (·.i) = some 0x004B ∧
    after 0xF129 (withRegs [(1, 0x10)]) (·.i) = some 0x0050 ∧
    after 0xF129 (withRegs [(1, 0xFF)]) (·.i) = some 0x04FB := by decide

/-- M11, M13, M15. -/
theorem test_ld_b :
    after 0xF133 { withRegs [(1, 99)] with i := 0x300 } (·.mem.readBytes 0x300 3) = some [0, 9, 9] ∧
    after 0xF133 { withRegs [(1, 156)] with i := 0x300 } (·.mem.readBytes 0x300 3) = some [1, 5, 6] ∧
    after 0xF133 { withRegs [(1, 255)] with i := 0xFFD } (·.mem.readBytes 0xFFD 3) = some [2, 5, 5] := by decide

/-- M16, M17. -/
theorem test_ld_b_faults : FaultsPrecisely 0xF133 { withRegs [(1, 255)] with i := 0xFFE } .memOutOfBounds ∧
    FaultsPrecisely 0xF133 { withRegs [(1, 255)] with i := 0xFFFF } .memOutOfBounds := ⟨rfl, rfl⟩

/-- M18 (its ends), M20, M25. -/
theorem test_store_regs :
    after 0xFF55 { withRegs [(0, 0xA0), (14, 0xAE), (15, 0xAF)] with i := 0xFF0 }
      (fun t => (t.mem.read 0xFF0, t.mem.read 0xFFE, t.mem.read 0xFFF, t.i)) = some (0xA0, 0xAE, 0xAF, 0xFF0) ∧
    after 0xF055 { withRegs [(0, 0x42)] with i := 0xFFF } (·.mem.read 0xFFF) = some 0x42 ∧
    after 0xF255 { withRegs [(0, 0x12), (1, 0x34), (2, 0x56)] with i := 0x200 } fetchWord = some (some 0x5600) := by
  decide

/-- M19, M21. -/
theorem test_store_regs_faults : FaultsPrecisely 0xFF55 { withRegs [(0, 0xA0)] with i := 0xFF1 } .memOutOfBounds ∧
    FaultsPrecisely 0xF055 { withRegs [(0, 0x42)] with i := 0x1000 } .memOutOfBounds := ⟨rfl, rfl⟩

/-- M22, M23. -/
theorem test_load_regs :
    after 0xF265 (withBytes 0x400 [0x11, 0x22, 0x33, 0x44] { withRegs [(3, 0x99)] with i := 0x400 })
      (fun t => ([t.reg 0, t.reg 1, t.reg 2, t.reg 3], t.i)) = some ([0x11, 0x22, 0x33, 0x99], 0x400) ∧
    after 0xFF65 State.reset (·.v.toList) = some [0xF0, 0x90, 0x90, 0x90, 0xF0, 0x20, 0x60, 0x20, 0x20, 0x70, 0xF0, 0x10,
      0xF0, 0x80, 0xF0, 0xF0] := by decide

/-- M24. -/
theorem test_load_regs_faults : FaultsPrecisely 0xF165 { State.reset with i := 0xFFF } .memOutOfBounds := rfl

/-! ### Display -/

/-- X1. -/
theorem test_cls : after 0x00E0 (withPixels [(1, 1)] (withRegs [(VF, 0x77)]))
    (fun t => (pixels [(0, 0), (1, 1), (31, 63)] t, t.dirty, t.reg VF)) = some ([false, false, false], true, 0x77) := by decide

/-- X4: the corners of the wrapped sprite, the pixels just outside it, no collision. -/
theorem test_drw_wraps :
    after 0xD122 (withBytes 0x300 [0xFF, 0xFF] { withRegs [(1, 127), (2, 63)] with i := 0x300 })
      (fun t => (pixels [(31, 63), (31, 0), (31, 6), (0, 63), (0, 6), (31, 62), (31, 7), (30, 63), (1, 63), (0, 7)] t,
        t.reg VF, t.dirty)) =
      some ([true, true, true, true, true, false, false, false, false, false], 0, true) := by decide

/-- X5, X10: a collision, and `VF` as the column. -/
theorem test_drw_collides :
    after 0xD121 (withPixels [(0, 1), (0, 2)] (withBytes 0x300 [0xC0] { State.reset with i := 0x300 }))
      (fun t => (pixels [(0, 0), (0, 1), (0, 2)] t, t.reg VF)) = some ([true, false, true], 1) ∧
    after 0xDF11 (withBytes 0x300 [0x80] { withRegs [(VF, 0x42), (1, 3)] with i := 0x300 })
      (fun t => (pixels [(3, 2), (3, 1), (3, 3)] t, t.reg VF)) = some ([true, false, false], 0) := by decide

/-- X7, X9. -/
theorem test_drw_bounds :
    after 0xD120 { withRegs [(1, 5), (2, 5), (VF, 0x77)] with i := 0xFFFF }
      (fun t => (pixels [(5, 5)] t, t.reg VF, t.dirty)) = some ([false], 0, true) ∧
    FaultsPrecisely 0xD122 (withBytes 0xFFF [0x80] { withRegs [(1, 5), (2, 5), (VF, 0x77)] with i := 0xFFF })
      .memOutOfBounds := ⟨by decide, rfl⟩

/-! ### Keys and timers -/

/-- K1, K3, K5. -/
theorem test_skp : after 0xE19E (withKeys [15] (withRegs [(1, 15)])) (·.pc) = some 0x0204 ∧
    after 0xE19E State.reset (·.pc) = some 0x0202 ∧
    FaultsPrecisely 0xE19E (withRegs [(1, 16)]) .keyIndexOutOfRange := ⟨by decide, by decide, rfl⟩

/-- K2, K4, K6. -/
theorem test_sknp : after 0xE1A1 (withKeys [15] (withRegs [(1, 15)])) (·.pc) = some 0x0202 ∧
    after 0xE1A1 State.reset (·.pc) = some 0x0204 ∧
    FaultsPrecisely 0xE1A1 (withRegs [(1, 0xFF)]) .keyIndexOutOfRange := ⟨by decide, by decide, rfl⟩

/-- K7, K10. -/
theorem test_ld_key :
    after 0xF10A (withKeys [9, 3] { withRegs [(1, 0x55)] with w := true }) (fun t => (t.reg 1, t.pc, t.w)) =
      some (3, 0x0202, false) ∧
    after 0xFF0A (withKeys [15] (withRegs [(VF, 0x55)])) (·.reg VF) = some 0x0F := by decide

/-- K9. -/
theorem test_ld_key_waits : after 0xF10A (withRegs [(1, 0x55)]) (fun t => (t.reg 1, t.pc, t.w)) =
    some (0x55, 0x0200, true) := by decide

/-- K11. -/
theorem test_ld_from_dt : after 0xF107 { withRegs [(1, 1)] with dt := 0x2C } (fun t => (t.reg 1, t.dt)) =
    some (0x2C, 0x2C) := by decide

/-- K12, K13. -/
theorem test_ld_dt : after 0xF115 (withRegs [(1, 0x3C)]) (fun t => (t.dt, t.st)) = some (0x3C, 0) := by decide

theorem test_ld_st : after 0xF118 (withRegs [(1, 0x05)]) (fun t => (t.dt, t.st)) = some (0, 5) := by decide

/-! ### The host's transactions -/

/-- T1 (first TICK), T2, T3. -/
theorem test_tick : tick { State.reset with dt := 3, st := 1 } = { State.reset with dt := 2, st := 0 } ∧
    tick State.reset = State.reset ∧
    transactLoaded .tick { State.reset with fault := .stackUnderflow, dt := 2 } =
      ({ State.reset with fault := .stackUnderflow, dt := 1 }, .done) := by decide

/-- T4, T5. -/
theorem test_draw_ack : drawAck { State.reset with dirty := true } = State.reset ∧
    after 0x6000 { State.reset with dirty := true } (·.dirty) = some true := by decide

/-- P5's KEYS: keys 3 and 9. -/
theorem test_keys : keys 0x0208 State.reset = withKeys [3, 9] State.reset := by decide

/-- Z4, Z6. -/
theorem test_reset_load :
    (resetLoad 0 [0x12]).mem.readBytes 0x200 2 = [0x12, 0x00] ∧
    (resetLoad 0 [0x12]).mem.readBytes 0x000 5 = [0xF0, 0x90, 0x90, 0x90, 0xF0] ∧
    (resetLoad 0 [0x12]).mem.readBytes 0x04B 6 = [0xF0, 0x80, 0xF0, 0x80, 0x80, 0x00] ∧
    (resetLoad 0 [0x12]).pc = 0x200 := by decide

/-- Z1, Z2: 3584 bytes load and 3585 do not. -/
theorem test_reset_load_length (s : State) (rom : List Byte) :
    (rom.length = 3584 → (transactLoaded (.resetLoad rom) s).2 = .ok) ∧
    (rom.length = 3585 → (transactLoaded (.resetLoad rom) s).2 = .romTooLarge ∧
      (transactLoaded (.resetLoad rom) s).1.fault = .romTooLarge) := by
  constructor <;> intro h <;> simp [transactLoaded, resetLoad, rejectedState, Config.romMax, h]

/-- S1, its last STEP: `ADD V0,V1` on 10 and 5. -/
theorem test_source_example : after 0x8014 { withRegs [(0, 0x0A), (1, 0x05)] with pc := 0x204 }
    (fun t => (t.reg 0, t.reg 1, t.reg VF, t.pc)) = some (0x0F, 0x05, 0, 0x206) := by decide

/-! ### Witnesses: the hypotheses of each obligation are met, at the values where its clauses meet -/

theorem witness_EncodeOfDecode : decode 0x0FEE = some .ret ∧ decode 0x5121 = some (.seVxVy 1 2) ∧
    decode 0x9FFF = some (.sneVxVy 15 15) ∧ decode 0x812E = some (.shlVx 1 2) ∧ decode 0xFF65 = some (.ldVxI 15) := by decide

theorem witness_OpcodeMapGovernsDecode :
    opcodeRows.length = 34 ∧ opcodeRows.any (·.matches 0x0FE0) = true ∧ opcodeRows.any (·.matches 0x8128) = false := by decide

theorem witness_UnknownWordsAreExactly : decode 0x0FFF = none ∧ decode 0x8FFF = none ∧ decode 0x800D = none ∧
    decode 0xE09D = none ∧ decode 0xFFFF = none ∧ decode 0x000E = none := by decide

/-- `LD V0,0x11` placed at the highest address a fetch may have (C4). -/
def atTheTop : State := withWord 0x6011 { State.reset with pc := 4094 }

theorem witness_StepRunsTheDecodedInstruction : atTheTop.fault = .noFault ∧ atTheTop.pc.toNat ≤ 4094 ∧
    decodeBytes [atTheTop.mem.read atTheTop.pc.toNat, atTheTop.mem.read (atTheTop.pc.toNat + 1)] =
      .ok (.ldVxNn 0 0x11, []) := by decide

theorem witness_FetchIsBigEndian : atTheTop.pc.toNat ≤ 4094 ∧ fetchWord atTheTop = some 0x6011 := by decide

theorem witness_FetchAboveMemoryFaults : State.reset.fault = .noFault ∧
    4094 < ({ State.reset with pc := 4095 } : State).pc.toNat ∧ 4094 < ({ State.reset with pc := 0xFFFF } : State).pc.toNat := by
  decide

theorem witness_UnknownWordIsANoOp : State.reset.fault = .noFault ∧ fetchWord State.reset = some 0 ∧ decode 0 = none := by
  decide

/-- The engine halted by a `RET` on an empty stack. -/
def halted : State := { State.reset with fault := .stackUnderflow }

theorem witness_HaltedStepChangesNothing : halted.fault ≠ .noFault := by decide

theorem witness_FaultsArePrecise : (withWord 0x00EE State.reset).fault = .noFault ∧
    step (withWord 0x00EE State.reset) = .next { withWord 0x00EE State.reset with fault := .stackUnderflow } ∧
    Cause.stackUnderflow ≠ .noFault := ⟨rfl, rfl, by decide⟩

/-- Each cause, and beside it the nearest state that does not raise it. -/
theorem witness_FaultCausesAreExactly :
    after 0x2ABC { State.reset with sp := 16 } (·.fault) = some .stackOverflow ∧
    after 0x2ABC { State.reset with sp := 15 } (·.fault) = some .noFault ∧
    after 0x00EE { State.reset with sp := 0 } (·.fault) = some .stackUnderflow ∧
    after 0x00EE { State.reset with sp := 1 } (·.fault) = some .noFault ∧
    after 0xF033 { State.reset with i := 0xFFE } (·.fault) = some .memOutOfBounds ∧
    after 0xF033 { State.reset with i := 0xFFD } (·.fault) = some .noFault := by decide

theorem witness_FaultCausesAreExactly_ranges :
    after 0xF155 { State.reset with i := 0xFFF } (·.fault) = some .memOutOfBounds ∧
    after 0xF155 { State.reset with i := 0xFFE } (·.fault) = some .noFault ∧
    after 0xF165 { State.reset with i := 0xFFF } (·.fault) = some .memOutOfBounds ∧
    after 0xF165 { State.reset with i := 0xFFE } (·.fault) = some .noFault ∧
    after 0xD012 { State.reset with i := 0xFFF } (·.fault) = some .memOutOfBounds ∧
    after 0xD011 { State.reset with i := 0xFFF } (·.fault) = some .noFault := by decide

theorem witness_AwaitingFlagFollowsTheOutcome :
    after 0xF00A State.reset (fun t => (t.fault, t.w)) = some (.noFault, true) ∧
    after 0xF00A (withKeys [0] State.reset) (fun t => (t.fault, t.w)) = some (.noFault, false) ∧
    after 0x00EE State.reset (fun t => (t.fault, t.w)) = some (.stackUnderflow, false) := by decide

theorem witness_Inv : Inv State.reset := ⟨rfl, by decide, by decide, fun h => by cases h⟩

/-- A waiting engine: `LD V0,K` at `PC`, no key pressed, `W` set. -/
def waitingState : State := { withWord 0xF00A State.reset with w := true }

theorem witness_Inv_waiting : Inv waitingState := ⟨by decide, by decide, by decide, fun _ => ⟨rfl, by decide⟩⟩

theorem witness_StepKeepsInv : Inv State.reset ∧ step State.reset = .next { State.reset with pc := 0x202 } :=
  ⟨witness_Inv, rfl⟩

theorem witness_TransactionsKeepInv :
    runTransactions [.tick, .resetLoad [], .step, .drawAck] none = some { State.reset with pc := 0x202 } := rfl

theorem witness_ResetLoadLeaves : ([] : List Byte).length ≤ 3584 ∧ ([0x12] : List Byte).length ≤ 3584 ∧
    0 < ([0x12] : List Byte).length := by decide

theorem witness_ResetLoadLeaves_longest : (List.replicate 3584 (0xFF : Byte)).length ≤ 3584 := by
  rw [List.length_replicate]

theorem witness_OversizeRomIsRefused : 3584 < (List.replicate 3585 (0 : Byte)).length := by
  rw [List.length_replicate]; decide

theorem witness_NothingBeforeTheFirstResetLoad : ∀ rom, Transaction.tick ≠ .resetLoad rom := fun _ h => by cases h

theorem witness_OnlyResetLoadClearsTheLatch : halted.fault ≠ .noFault ∧ ∀ rom, Transaction.step ≠ .resetLoad rom :=
  ⟨by decide, fun _ h => by cases h⟩

/-- RESET_LOAD at both lengths and in each condition: never loaded, halted, waiting. -/
theorem witness_ResetLoadForgets : ([] : List Byte).length ≤ 3584 ∧ 3584 < (List.replicate 3585 (0 : Byte)).length ∧
    (transact (.resetLoad []) none).2 = .ok ∧ (transact (.resetLoad []) (some halted)).2 = .ok ∧
    (transact (.resetLoad []) (some waitingState)).2 = .ok := by
  refine ⟨by decide, by rw [List.length_replicate]; decide, rfl, rfl, rfl⟩

/-- The running, the awaiting and the halted row of R253, and a STEP that waits and one that completes. -/
theorem witness_TransactionsActInEveryCondition :
    transact .step (some waitingState) = (some waitingState, .stepped .waiting) ∧
    transact .step (some halted) = (some halted, .stepped .halted) ∧
    instrAtPC (withWord 0x6011 State.reset) = some (.ldVxNn 0 0x11) ∧
    (transact .step (some (withWord 0x6011 State.reset))).2 = .stepped (.completed none) := by
  refine ⟨rfl, rfl, by decide, rfl⟩

theorem witness_ProgramCannotTouchTheHostsState :
    step { halted with dirty := true } = .next { halted with dirty := true } ∧ halted.fault ≠ .noFault := ⟨rfl, by decide⟩

/-- Each form that writes memory, `I`, the stack, a timer or the screen does change it somewhere. -/
theorem witness_WritersAreTheListedForms :
    after 0xF033 { withRegs [(0, 1)] with i := 0x300 } (·.mem.read 0x302) = some 1 ∧
    after 0xF055 { withRegs [(0, 1)] with i := 0x300 } (·.mem.read 0x300) = some 1 ∧
    after 0xA2F0 State.reset (·.i) = some 0x2F0 ∧ after 0x2300 State.reset (fun t => (t.slot 0, t.sp.val)) = some (0x202, 1) ∧
    after 0xF015 (withRegs [(0, 1)]) (·.dt) = some 1 ∧ after 0x00E0 State.reset (·.dirty) = some true ∧
    after 0xC000 State.reset (·.draws) = some 1 := by decide

theorem witness_RegistersChangeOnlyAsListed :
    after 0x8124 (withRegs [(1, 0xFF), (2, 2)]) (fun t => (t.reg 1, t.reg VF)) = some (1, 1) ∧
    1 ∈ namedDestinations (.addVxVy 1 2) ∧ VF ∉ namedDestinations (.addVxVy 1 2) ∧ writesFlag (.addVxVy 1 2) = true ∧
    15 ∈ namedDestinations (.ldVxI 15) ∧ 1 ∉ namedDestinations (.ldVxI 0) := by decide

theorem witness_JumpsSetPC : (0x200 : Addr).toNat = State.reset.pc.toNat := by decide

theorem witness_CallPushes : ({ State.reset with sp := 0 } : State).sp.val < 16 ∧
    ({ State.reset with sp := 15 } : State).sp.val < 16 ∧ ({ State.reset with sp := 16 } : State).sp.val = 16 := by decide

theorem witness_RetPops : ({ State.reset with sp := 1 } : State).sp.val = (0 : Fin 16).val + 1 ∧
    ({ State.reset with sp := 16 } : State).sp.val = (15 : Fin 16).val + 1 ∧ State.reset.sp.val = 0 := by decide

/-- The state a `CALL 0x300` from reset leaves. -/
def called : State :=
  { State.reset with stack := State.reset.stack.set 0 0x202, sp := 1, pc := 0x300 }

theorem witness_RetReturnsAfterTheCall : State.reset.sp.val < 16 ∧ exec (.call 0x300) State.reset = .next called ∧
    SameStack called { called with v := Vector.replicate 16 7, pc := 0x345 } :=
  ⟨by decide, rfl, rfl, fun _ => rfl⟩

/-- C18. -/
theorem witness_SelfJumpIsTheEnd : EndsWell (withWord 0x1200 State.reset) :=
  ⟨rfl, 0x200, by decide, by decide⟩

theorem witness_flag_is_not_the_destination : (1 : Reg) ≠ VF := by decide

theorem witness_DecimalStore : ({ State.reset with i := 0xFFD } : State).i.toNat + 2 ≤ 0xFFF ∧
    0xFFF < ({ State.reset with i := 0xFFE } : State).i.toNat + 2 := by decide

theorem witness_RegisterStore_RegisterLoad :
    ({ State.reset with i := 0xFF0 } : State).i.toNat + (15 : Reg).val ≤ 0xFFF ∧
    0xFFF < ({ State.reset with i := 0xFF1 } : State).i.toNat + (15 : Reg).val ∧
    ({ State.reset with i := 0xFFF } : State).i.toNat + (0 : Reg).val ≤ 0xFFF := by decide

/-- Two registers stored where the next fetch reads (M25's overwriting of itself), and the state it leaves. -/
def storing : State := { withRegs [(0, 0x12), (1, 0x34)] with i := 0x200 }

def stored : State := (storeElements storing [0x12, 0x34]).next

theorem witness_StoredRegistersLoadBack : storing.i.toNat + (1 : Reg).val ≤ 0xFFF ∧ exec (.ldIVx 1) storing = .next stored ∧
    SameMem stored { stored with v := Vector.replicate 16 0 } ∧ ({ stored with v := Vector.replicate 16 0 } : State).i = storing.i :=
  ⟨by decide, rfl, fun _ => rfl, rfl⟩

theorem witness_StoresAreFetched : storing.i.toNat + (1 : Reg).val ≤ 0xFFF ∧ exec (.ldIVx 1) storing = .next stored ∧
    SameMem stored { stored with pc := 0x200 } ∧ ({ stored with pc := 0x200 } : State).pc.toNat ≤ 4094 ∧
    ({ stored with pc := 0x200 } : State).fault = .noFault :=
  ⟨by decide, rfl, fun _ => rfl, by decide, rfl⟩

/-- Where the stored range begins and ends: `PC` just below it, on its last byte, and past it. -/
theorem witness_StoresAreFetched_edges :
    registerStoreByte 1 storing 0x1FF = 0 ∧ registerStoreByte 1 storing 0x200 = 0x12 ∧
    registerStoreByte 1 storing 0x201 = 0x34 ∧ registerStoreByte 1 storing 0x202 = 0 ∧
    registerStoreByte 0 storing 0x200 = 0x12 ∧ registerStoreByte 0 storing 0x201 = 0 := by decide

/-- M13's digits, stored where a later fetch reads. -/
def storingDigits : State := { withRegs [(1, 156)] with i := 0x200 }

theorem witness_StoresAreFetched_decimal : storingDigits.i.toNat + 2 ≤ 0xFFF ∧
    exec (.ldBVx 1) storingDigits = .next (storeElements storingDigits [1, 5, 6]).next ∧
    decimalStoreByte 1 storingDigits 0x1FF = 0 ∧ decimalStoreByte 1 storingDigits 0x200 = 1 ∧
    decimalStoreByte 1 storingDigits 0x201 = 5 ∧ decimalStoreByte 1 storingDigits 0x202 = 6 ∧
    decimalStoreByte 1 storingDigits 0x203 = 0 :=
  ⟨by decide, rfl, by decide, by decide, by decide, by decide, by decide⟩

theorem witness_CanonicalMemoriesAreEqual : Memory.wf (Memory.write (Memory.write [] 0x300 1) 0x200 2) = true ∧
    Memory.wf (Memory.write (Memory.write [] 0x200 2) 0x300 1) = true ∧
    ∀ a, (Memory.write (Memory.write [] 0x300 1) 0x200 2).read a = (Memory.write (Memory.write [] 0x200 2) 0x300 1).read a :=
  ⟨by decide, by decide, fun _ => rfl⟩

/-- A sprite byte at the top of memory, one pixel of it set already. -/
def drawing : State := withPixels [(0, 0)] (withBytes 0xFFF [0x80] { State.reset with i := 0xFFF })

theorem witness_DrwPlots : drawing.i.toNat + ((1 : Nibble).toNat - 1) ≤ 0xFFF ∧
    0 < (2 : Nibble).toNat ∧ 0xFFF < drawing.i.toNat + ((2 : Nibble).toNat - 1) ∧ (0 : Nibble).toNat = 0 ∧
    spriteLights drawing 0 0 1 0 0 = true ∧ drawing.pixel 0 0 = true ∧ spriteLights drawing 0 0 1 0 1 = false := by decide

theorem witness_DrwPlots_misses : ∀ px : Fin 64, spriteLights drawing 1 2 1 0 px = true → State.reset.pixel 0 px = false := by
  decide

theorem witness_DrwTwiceRestores : (0 : Reg) ≠ VF ∧ (1 : Reg) ≠ VF ∧ drawing.i.toNat + ((1 : Nibble).toNat - 1) ≤ 0xFFF ∧
    ∃ t u, exec (.drw 0 1 1) drawing = .next t ∧ exec (.drw 0 1 1) t = .next u :=
  ⟨by decide, by decide, by decide, _, _, rfl, rfl⟩

theorem witness_KeySkips : ((withRegs [(1, 15)]).reg 1).toNat = (15 : Fin 16).val ∧
    15 < ((withRegs [(1, 16)]).reg 1).toNat := by decide

theorem witness_KeyWait : (withKeys [9, 3] State.reset).keyDown 3 = true ∧
    (∀ j : Fin 16, j < 3 → (withKeys [9, 3] State.reset).keyDown j = false) ∧
    (∀ k : Fin 16, State.reset.keyDown k = false) := by decide

theorem witness_WaitingLasts : waitingState.fault = .noFault ∧ instrAtPC waitingState = some (.ldVxK 0) ∧
    ∀ k : Fin 16, waitingState.keyDown k = false := by decide

theorem witness_PlacedWordRuns : decodeTableWord 16 0x6011 = some (.ldVxNn 0 0x11) ∧ State.reset.fault = .noFault ∧
    State.reset.pc.toNat ≤ 4094 := by decide

end Sys2Proof.Tests
end

/-! ### How an instruction ends (40_step_cycle.md R104, R107; 60_exceptions.md R233)

Every meaning ends a STEP in one of three ways, each a next state: it completes, it waits for a key, or it latches a cause. -/

namespace Sys2Proof.Machine

/-- The ways an instruction run on `s` can end. -/
inductive Ending (s : State) : Result → Prop where
  /-- It completes with a `PC`, the latch as it was (R104). -/
  | completes (t : State) (pc : Word) (hfault : t.fault = s.fault) : Ending s (.next (t.complete pc))
  /-- It waits for a key: `LD Vx,K` with none pressed (R107, R212). -/
  | waits : Ending s (.next s.await)
  /-- It latches a cause and changes nothing else (R233). -/
  | faults (c : Cause) (hc : c ≠ .noFault) : Ending s (raise c s)

/-- Every ending is a next state, a fault included (log 3). -/
theorem Ending.exists_next {s : State} {r : Result} (h : Ending s r) : ∃ t, r = .next t := by
  cases h with
  | completes t pc _ => exact ⟨t.complete pc, rfl⟩
  | waits => exact ⟨s.await, rfl⟩
  | faults c _ => exact ⟨_, raise_eq c s⟩

/-! #### The shared endings -/

/-- A conditional skip completes, whichever way the condition falls (R120). -/
theorem Ending.skipIf (s : State) (c : Bool) : Ending s (.next (s.skipIf c)) := by
  rw [State.skipIf_eq]
  exact .completes s _ rfl

/-- An access through `I` completes where it fits and faults where it does not (R174). -/
theorem Ending.checked {s t : State} (count : Nat) (ht : t.fault = s.fault) :
    Ending s (if accessFits s count then .next t.next else raise .memOutOfBounds s) := by
  split
  · exact .completes t _ ht
  · exact .faults _ (by decide)

/-! #### The forms that ask the stack or the keypad first -/

theorem execRet_ending (s : State) : Ending s (execRet s) := by
  unfold execRet
  by_cases h : 0 < s.sp.val
  · rw [State.pop?_of_pos s h]
    exact .completes _ _ rfl
  · rw [State.pop?_of_empty s (Nat.eq_zero_of_not_pos h)]
    exact .faults _ (by decide)

theorem execCall_ending (nnn : Addr) (s : State) : Ending s (execCall nnn s) := by
  unfold execCall
  by_cases h : s.sp.val < 16
  · rw [State.push?_of_lt s _ h]
    exact .completes _ _ rfl
  · rw [State.push?_of_full s _ h]
    exact .faults _ (by decide)

theorem execSkp_ending (x : Reg) (s : State) : Ending s (execSkp x s) := by
  unfold execSkp
  cases keyIndex (s.reg x) with
  | some k => exact .skipIf s _
  | none => exact .faults _ (by decide)

theorem execSknp_ending (x : Reg) (s : State) : Ending s (execSknp x s) := by
  unfold execSknp
  cases keyIndex (s.reg x) with
  | some k => exact .skipIf s _
  | none => exact .faults _ (by decide)

theorem execLdVxK_ending (x : Reg) (s : State) : Ending s (execLdVxK x s) := by
  unfold execLdVxK
  cases lowestKey s.key with
  | some k => exact .completes _ _ rfl
  | none => exact .waits

/-! #### Every form, and every STEP -/

/-- The execute phase ends in one of the three ways, whatever the form and the state (R103). -/
theorem exec_ending (i : Instr) (s : State) : Ending s (exec i s) := by
  cases i with
  | ret => exact execRet_ending s
  | call nnn => exact execCall_ending nnn s
  | seVxNn x nn => exact .skipIf s _
  | sneVxNn x nn => exact .skipIf s _
  | seVxVy x y => exact .skipIf s _
  | sneVxVy x y => exact .skipIf s _
  | skp x => exact execSkp_ending x s
  | sknp x => exact execSknp_ending x s
  | ldVxK x => exact execLdVxK_ending x s
  | drw x y n => exact .checked n.toNat rfl
  | ldBVx x => exact .checked 3 rfl
  | ldIVx x => exact .checked (x.val + 1) rfl
  | ldVxI x => exact .checked (x.val + 1) rfl
  -- the remaining forms complete in every state
  | _ => exact .completes _ _ rfl

/-- Every STEP answers a next state: the halted engine its own state (R106), the rest an ending (R101, R105). -/
theorem step_exists_next (s : State) : ∃ t, step s = .next t := by
  obtain ⟨-, h⟩ | ⟨-, -, h⟩ | ⟨-, -, -, h⟩ | ⟨-, -, i, -, h⟩ := step_cases (s := s) rfl
  · exact ⟨s, h⟩
  · exact ⟨_, h.trans (raise_eq .fetchOutOfBounds s)⟩
  · exact ⟨s.next, h⟩
  · rw [h]
    exact (exec_ending i s).exists_next

/-- Settles O12: every instruction ends as an `Ending`, and every ending is a next state. -/
theorem everyStepAnswers : Obligations.EveryStepAnswers :=
  ⟨fun i s => (exec_ending i s).exists_next, step_exists_next⟩

end Sys2Proof.Machine

/-! ### What an instruction can do (10_state.md R20, R22, R40; 40_step_cycle.md R103)

Said once, for every form: what it may write before it completes, where it may send `PC`, and which forms wait or fault. The
claims about every instruction and every STEP below are read off `exec_effect`, with no meaning unfolded again. -/

namespace Sys2Proof.Machine

/-- `Writes s i u`: run on `s`, the form `i` may complete with the writes that make `u` of `s`. The listed forms are the
writers of R20 and R40. -/
inductive Writes (s : State) : Instr → State → Prop where
  | nothing (i : Instr) : Writes s i s
  | regs (i : Instr) (v : Vector Byte 16)
      (hv : ∀ r : Reg, v[r] ≠ s.reg r → r ∈ namedDestinations i ∨ (r = VF ∧ writesFlag i = true)) : Writes s i (s.setV v)
  | random (x : Reg) (nn b : Byte) : Writes s (.rnd x nn) (s.countDraw.setReg x b)
  | index (i : Instr) (a : Word) (hi : (∃ nnn, i = .ldINnn nnn) ∨ ∃ x, i = .addIVx x ∨ i = .ldFVx x) :
      Writes s i (s.setI a)
  | bytes (i : Instr) (bs : List Byte) (hi : ∃ x, i = .ldBVx x ∨ i = .ldIVx x)
      (hfit : base s + bs.length ≤ Config.memSize) : Writes s i (storeElements s bs)
  | push (nnn : Addr) (h : s.sp.val < 16) :
      Writes s (.call nnn)
        { s with stack := s.stack.set s.sp.val (s.pc + 2), sp := ⟨s.sp.val + 1, Nat.succ_lt_succ h⟩ }
  | pop (sp : Fin 17) : Writes s .ret { s with sp := sp }
  | delay (x : Reg) (b : Byte) : Writes s (.ldDTVx x) (s.setDT b)
  | sound (x : Reg) (b : Byte) : Writes s (.ldSTVx x) (s.setST b)
  | clear (fb : Framebuffer) : Writes s .cls (s.paint fb)
  | sprite (x y : Reg) (n : Nibble) (flag : Byte) (fb : Framebuffer) :
      Writes s (.drw x y n) ((s.setReg VF flag).paint fb)

/-- Where an instruction completed on `s` may send `PC` (R104, R120 to R128). -/
inductive Target (s : State) : Word → Prop where
  | next : Target s (s.pc + 2)
  | skip : Target s (s.pc + 4)
  | jump (nnn : Addr) : Target s (nnn.setWidth 16)
  | jumpPlus (nnn : Addr) (b : Byte) : Target s (nnn.setWidth 16 + b.setWidth 16)
  | back (k : Fin 16) : Target s (s.slot k)

/-- An `Ending` with its writes and its `PC`, and with the forms that can wait or fault told apart. -/
inductive Effect (i : Instr) (s : State) : Result → Prop where
  /-- The writes are made, `PC` takes its value and `W` is cleared (R104, R107). -/
  | completes (u : State) (pc : Word) (hw : Writes s i u) (hpc : Target s pc) : Effect i s (.next (u.complete pc))
  /-- Only `LD Vx,K` waits (R212). -/
  | waits (hi : ∃ x, i = .ldVxK x) : Effect i s (.next s.await)
  /-- A cause is latched and nothing else changes (R233); `LD Vx,K` is no form that faults. -/
  | faults (c : Cause) (hi : ∀ x, i ≠ .ldVxK x) : Effect i s (.next { s with fault := c })

/-! #### The shared ways to complete -/

theorem Writes.setReg (s : State) (i : Instr) (x : Reg) (b : Byte) (hx : x ∈ namedDestinations i) :
    Writes s i (s.setReg x b) :=
  .regs i (s.v.set x b) fun r hr => .inl <| by
    by_cases h : r = x
    · exact h ▸ hx
    · exact absurd (State.reg_setReg_ne s x r b h) hr

theorem Writes.setFlagged (s : State) (i : Instr) (x : Reg) (flag : Bool) (b : Byte) (hx : x ∈ namedDestinations i)
    (hi : writesFlag i = true) : Writes s i (s.setFlagged x flag b) :=
  .regs i ((s.v.set VF (flagByte flag)).set x b) fun r hr => by
    have hread : ((s.v.set VF (flagByte flag)).set x b)[r] =
        if r = x then b else if r = VF then flagByte flag else s.reg r := State.reg_setFlagged s x r flag b
    by_cases hrx : r = x
    · exact .inl (hrx ▸ hx)
    · by_cases hrf : r = VF
      · exact .inr ⟨hrf, hi⟩
      · exact absurd (by rw [hread, if_neg hrx, if_neg hrf]) hr

/-- `LD Vx,[I]` writes no register above `V[x]` (R176). -/
theorem Writes.regsLoaded (s : State) (x : Reg) : Writes s (.ldVxI x) (s.setV (regsLoaded s x)) :=
  .regs _ _ fun k hk => .inl <| by
    by_cases h : k ≤ x
    · simpa [namedDestinations] using h
    · exact absurd (by rw [regsLoaded_getElem, if_neg h]) hk

/-- The end of every form that does not touch `PC` otherwise (R104). -/
theorem Effect.next {i : Instr} {s u : State} (hw : Writes s i u) (hpc : u.pc = s.pc) : Effect i s (.next u.next) :=
  .completes u _ hw (hpc ▸ .next)

theorem Effect.writeReg (i : Instr) (s : State) (x : Reg) (b : Byte) (hx : x ∈ namedDestinations i) :
    Effect i s (.next (s.setReg x b).next) :=
  .next (.setReg s i x b hx) rfl

theorem Effect.writeFlagged (i : Instr) (s : State) (x : Reg) (flag : Bool) (b : Byte) (hx : x ∈ namedDestinations i)
    (hi : writesFlag i = true) : Effect i s (.next (s.setFlagged x flag b).next) :=
  .next (.setFlagged s i x flag b hx hi) rfl

theorem Effect.skipIf (i : Instr) (s : State) (c : Bool) : Effect i s (.next (s.skipIf c)) := by
  cases c
  · exact .completes s _ (.nothing i) .next
  · exact .completes s _ (.nothing i) .skip

/-- An access through `I` completes where it fits and faults where it does not (R174). -/
theorem Effect.checked {i : Instr} {s u : State} (count : Nat) (hi : ∀ x, i ≠ .ldVxK x) (hpc : u.pc = s.pc)
    (hw : accessFits s count = true → Writes s i u) :
    Effect i s (if accessFits s count then .next u.next else raise .memOutOfBounds s) := by
  split
  next hfit => exact .next (hw hfit) hpc
  next => exact .faults _ hi

/-! #### The forms that ask the stack or the keypad first -/

theorem execRet_effect (s : State) : Effect .ret s (execRet s) := by
  unfold execRet
  by_cases h : 0 < s.sp.val
  · rw [State.pop?_of_pos s h]
    exact .completes _ _ (.pop _) (.back _)
  · rw [State.pop?_of_empty s (Nat.eq_zero_of_not_pos h)]
    exact .faults _ nofun

theorem execCall_effect (nnn : Addr) (s : State) : Effect (.call nnn) s (execCall nnn s) := by
  unfold execCall
  by_cases h : s.sp.val < 16
  · rw [State.push?_of_lt s _ h]
    exact .completes _ _ (.push nnn h) (.jump nnn)
  · rw [State.push?_of_full s _ h]
    exact .faults _ nofun

theorem execSkp_effect (x : Reg) (s : State) : Effect (.skp x) s (execSkp x s) := by
  unfold execSkp
  cases keyIndex (s.reg x) with
  | some k => exact .skipIf _ s _
  | none => exact .faults _ nofun

theorem execSknp_effect (x : Reg) (s : State) : Effect (.sknp x) s (execSknp x s) := by
  unfold execSknp
  cases keyIndex (s.reg x) with
  | some k => exact .skipIf _ s _
  | none => exact .faults _ nofun

theorem execLdVxK_effect (x : Reg) (s : State) : Effect (.ldVxK x) s (execLdVxK x s) := by
  unfold execLdVxK
  cases lowestKey s.key with
  | some k => exact .writeReg _ s x _ (List.mem_singleton_self x)
  | none => exact .waits ⟨x, rfl⟩

/-! #### Every form -/

/-- The execute phase, whatever the form and the state (R103): every later claim about instructions rests on this. -/
theorem exec_effect (i : Instr) (s : State) : Effect i s (exec i s) := by
  cases i with
  | cls => exact .next (.clear _) rfl
  | ret => exact execRet_effect s
  | jp nnn => exact .completes s _ (.nothing _) (.jump nnn)
  | call nnn => exact execCall_effect nnn s
  | seVxNn x nn | sneVxNn x nn | seVxVy x y | sneVxVy x y => exact .skipIf _ s _
  | ldVxNn x nn | addVxNn x nn | ldVxVy x y | orVxVy x y | andVxVy x y | xorVxVy x y | ldVxDT x =>
    exact .writeReg _ s x _ (List.mem_singleton_self x)
  | addVxVy x y | subVxVy x y | shrVx x y | subnVxVy x y | shlVx x y =>
    exact .writeFlagged _ s x _ _ (List.mem_singleton_self x) rfl
  | ldINnn nnn => exact .next (.index _ _ (.inl ⟨nnn, rfl⟩)) rfl
  | addIVx x => exact .next (.index _ _ (.inr ⟨x, .inl rfl⟩)) rfl
  | ldFVx x => exact .next (.index _ _ (.inr ⟨x, .inr rfl⟩)) rfl
  | jpV0 nnn => exact .completes s _ (.nothing _) (.jumpPlus nnn _)
  | rnd x nn => exact .next (.random x nn _) rfl
  | drw x y n => exact .checked n.toNat nofun rfl fun _ => .sprite x y n _ _
  | skp x => exact execSkp_effect x s
  | sknp x => exact execSknp_effect x s
  | ldVxK x => exact execLdVxK_effect x s
  | ldDTVx x => exact .next (.delay x _) rfl
  | ldSTVx x => exact .next (.sound x _) rfl
  | ldBVx x => exact .checked 3 nofun rfl fun h => .bytes _ _ ⟨x, .inl rfl⟩ (accessFits_end h (Nat.succ_pos 2))
  | ldIVx x =>
    refine .checked (x.val + 1) nofun rfl fun h => .bytes _ _ ⟨x, .inr rfl⟩ ?_
    rw [regsUpTo_length]
    exact accessFits_end h (Nat.succ_pos _)
  | ldVxI x => exact .checked (x.val + 1) nofun rfl fun _ => .regsLoaded s x

/-! ### The invariant over a STEP (10_state.md R24, R32; 41_control_flow.md R123, R128) -/

theorem mnemonic_eq_keyWait_iff (i : Instr) : i.mnemonic = "LD_Vx_K" ↔ ∃ x, i = .ldVxK x := by
  cases i <;> simp [Instr.mnemonic]

theorem atKeyWait_iff (s : State) : atKeyWait s = true ↔ ∃ x, instrAtPC s = some (.ldVxK x) := by
  unfold atKeyWait
  cases instrAtPC s with
  | none => simp
  | some i => simp [mnemonic_eq_keyWait_iff]

/-- Where there is an instruction at `PC`, the fetch is inside memory (R101). -/
theorem pc_le_of_instrAtPC {s : State} {i : Instr} (h : instrAtPC s = some i) : s.pc.toNat ≤ 4094 := by
  obtain ⟨op, hop, -⟩ := (instrAtPC_eq_some_iff s i).mp h
  by_contra hgt
  rw [fetchWord_of_gt s (by omega)] at hop
  exact nomatch hop

/-- No form writes memory outside its 4096 bytes (R174). -/
theorem Writes.wf {s u : State} {i : Instr} (h : Writes s i u) (hmem : s.mem.wf = true) : u.mem.wf = true := by
  cases h with
  | bytes _ bs _ hfit => exact Memory.wf_writeBytes bs hmem hfit
  | _ => exact hmem

/-- The one return address written is `PC + 2` (R123). -/
theorem Writes.slot_le {s u : State} {i : Instr} (h : Writes s i u) (hpc : s.pc.toNat ≤ 4094)
    (hslot : ∀ k, (s.slot k).toNat ≤ 4096) (k : Fin 16) : (u.slot k).toNat ≤ 4096 := by
  cases h with
  | push nnn hsp =>
    simp only [State.slot, Fin.getElem_fin, Vector.getElem_set]
    split
    · bv_omega
    · exact hslot k
  | _ => exact hslot k

/-- The farthest `PC` is that of `JP V0,nnn`: 0xFFF + 0xFF (R24, R128). -/
theorem Target.toNat_le {s : State} {pc : Word} (h : Target s pc) (hpc : s.pc.toNat ≤ 4094)
    (hslot : ∀ k, (s.slot k).toNat ≤ 4096) : pc.toNat ≤ 0x10FE := by
  cases h with
  | next => bv_omega
  | skip => bv_omega
  | jump nnn => bv_omega
  | jumpPlus nnn b => bv_omega
  | back k => exact (hslot k).trans (by decide)

/-- A completed instruction meets the invariant, `W` being clear (R107). -/
theorem Inv.complete {s u : State} {i : Instr} {pc : Word} (h : Inv s) (hle : s.pc.toNat ≤ 4094) (hw : Writes s i u)
    (hpc : Target s pc) : Inv (u.complete pc) := by
  obtain ⟨hmem, -, hslot, -⟩ := h
  exact ⟨hw.wf hmem, hpc.toNat_le hle hslot, hw.slot_le hle hslot, nofun⟩

/-- So does the no-op of an unknown word (R105). -/
theorem Inv.next {s : State} (h : Inv s) (hle : s.pc.toNat ≤ 4094) : Inv s.next := by
  obtain ⟨hmem, -, hslot, -⟩ := h
  exact ⟨hmem, Target.next.toNat_le hle hslot, hslot, nofun⟩

/-- A latched cause keeps the invariant where `W` is clear. -/
theorem Inv.latch {s : State} (h : Inv s) (hw : s.w = false) (c : Cause) : Inv { s with fault := c } := by
  obtain ⟨hmem, hpc, hslot, -⟩ := h
  exact ⟨hmem, hpc, hslot, fun hw' => absurd hw' (by simp [hw])⟩

/-- `W` is clear where no `LD Vx,K` is at `PC` (R32): so whatever faults, `W` is clear. -/
theorem Inv.w_clear {s : State} (h : Inv s) (hi : ∀ x, instrAtPC s ≠ some (.ldVxK x)) : s.w = false := by
  obtain ⟨-, -, -, hw⟩ := h
  by_contra hset
  obtain ⟨x, hx⟩ := (atKeyWait_iff s).mp (hw (by simpa using hset)).2
  exact hi x hx

/-- Waiting keeps the invariant: `PC` stays at the `LD Vx,K` (R32). -/
theorem Inv.await {s : State} (h : Inv s) (hf : s.fault = .noFault) {x : Reg} (hi : instrAtPC s = some (.ldVxK x)) :
    Inv s.await := by
  obtain ⟨hmem, hpc, hslot, -⟩ := h
  exact ⟨hmem, hpc, hslot, fun _ => ⟨hf, (atKeyWait_iff _).mpr ⟨x, hi⟩⟩⟩

/-- An instruction executed at `PC` keeps the invariant. -/
theorem Inv.exec {s t : State} {i : Instr} (h : Inv s) (hf : s.fault = .noFault) (hi : instrAtPC s = some i)
    (ht : exec i s = .next t) : Inv t := by
  have heff := exec_effect i s
  rw [ht] at heff
  cases heff with
  | completes u pc hw hpc => exact h.complete (pc_le_of_instrAtPC hi) hw hpc
  | waits hx =>
    obtain ⟨x, rfl⟩ := hx
    exact h.await hf hi
  | faults c hne => exact h.latch (h.w_clear fun x hx => hne x (Option.some.inj (hi.symm.trans hx))) c

/-- Settles O16, over the four cases of a STEP: a fault is raised only with `W` clear, since `W` set puts an `LD Vx,K` at
`PC`, which never faults. -/
theorem stepKeepsInv : Obligations.StepKeepsInv := by
  intro s t hinv ht
  obtain ⟨-, h⟩ | ⟨-, hgt, h⟩ | ⟨-, hle, -, h⟩ | ⟨hf, -, i, hi, h⟩ := step_cases ht
  · cases h
    exact hinv
  · cases h
    refine hinv.latch (hinv.w_clear fun x hx => ?_) _
    exact absurd (pc_le_of_instrAtPC hx) (Nat.not_le_of_gt hgt)
  · cases h
    exact hinv.next hle
  · exact hinv.exec hf hi h.symm

end Sys2Proof.Machine

/-! ### The state after RESET_LOAD (10_state.md R37, R38; 70_reset_and_hazards.md R270) -/

namespace Sys2Proof.Machine

theorem Memory.read_nil (a : Nat) : Memory.read [] a = font.getD a 0 := rfl

theorem font_length : font.length = 0x50 := rfl

/-- Above the font, unwritten memory is 0 (R51). -/
theorem Memory.read_nil_of_ge {a : Nat} (h : 0x50 ≤ a) : Memory.read [] a = 0 :=
  List.getD_eq_default _ _ (font_length ▸ h)

/-- Outside the ROM's own addresses a loaded engine's memory is the reset contents (R270). -/
theorem loadedState_read_outside (draws : Nat) (rom : List Byte) (a : Nat) (h : a < 0x200 ∨ 0x200 + rom.length ≤ a) :
    (loadedState draws rom).mem.read a = Memory.read [] a :=
  Memory.read_writeBytes_outside [] 0x200 a rom h

theorem State.reset_reg (r : Reg) : State.reset.reg r = 0 := by simp [State.reg, State.reset]

theorem State.reset_slot (k : Fin 16) : State.reset.slot k = 0 := by simp [State.slot, State.reset]

theorem State.reset_pixel (y : Fin 32) (x : Fin 64) : State.reset.pixel y x = false := pixel_blankScreen y x

theorem State.reset_keyDown (k : Fin 16) : State.reset.keyDown k = false := by simp [State.keyDown, State.reset]

/-- Settles O19: memory is the ROM written over the reset contents, every other item is that of `State.reset`. -/
theorem resetLoadLeaves : Obligations.ResetLoadLeaves := by
  refine ⟨fun draws rom hlen => ?_, rfl⟩
  rw [resetLoad_of_le draws hlen]
  refine ⟨fun a ha => ?_, fun a hlo hhi => ?_, fun k hk => ?_, fun a ha => ?_, State.reset_reg, rfl, rfl, State.reset_slot,
    rfl, rfl, rfl, State.reset_pixel, rfl, State.reset_keyDown, rfl, rfl⟩
  · rw [loadedState_read_outside draws rom a (.inl (by omega)), Memory.read_nil]
  · rw [loadedState_read_outside draws rom a (.inl hhi), Memory.read_nil_of_ge hlo]
  · exact Memory.read_writeBytes_mem [] 0x200 k rom hk
  · rw [loadedState_read_outside draws rom a (.inr ha), Memory.read_nil_of_ge (by omega)]

/-- A state with `PC`, the stack and `W` as at reset meets the invariant where its memory is canonical. -/
theorem Inv.of_reset {s : State} (hmem : s.mem.wf = true) (hpc : s.pc = 0x200) (hstack : s.stack = State.reset.stack)
    (hw : s.w = false) : Inv s := by
  refine ⟨hmem, by rw [hpc]; decide, fun k => ?_, fun hw' => absurd hw' (by simp [hw])⟩
  rw [State.slot_congr hstack, State.reset_slot]
  exact Nat.zero_le _

/-- Settles O17: a ROM that is loaded ends inside memory, one that is too long leaves memory as at reset. -/
theorem resetMeetsInv : Obligations.ResetMeetsInv := by
  refine ⟨.of_reset Memory.wf_nil rfl rfl rfl, fun draws rom => ?_⟩
  by_cases hlen : rom.length ≤ 3584
  · rw [resetLoad_of_le draws hlen]
    have hfit : Config.progBase + rom.length ≤ Config.memSize := by simp only [Config.progBase, Config.memSize]; omega
    exact .of_reset (Memory.wf_writeBytes rom Memory.wf_nil hfit) rfl rfl rfl
  · rw [resetLoad_of_gt draws (by omega)]
    exact .of_reset Memory.wf_nil rfl rfl rfl

/-- A ROM that is too long leaves what an empty one does, with the latch set (R38). -/
theorem rejectedState_eq (draws : Nat) : rejectedState draws = { resetLoad draws [] with fault := .romTooLarge } := rfl

/-- Settles O20: RESET_LOAD rejects the ROM in both conditions, and the rejected state is halted. -/
theorem oversizeRomIsRefused : Obligations.OversizeRomIsRefused := by
  intro s rom hlen
  have hreport : ¬ rom.length ≤ Config.romMax := Nat.not_le_of_gt hlen
  refine ⟨?_, ?_, ?_⟩
  · simp only [transactLoaded, resetLoad_of_gt _ hlen, if_neg hreport, rejectedState_eq]
  · simp only [transact, transactUnloaded, resetLoad_of_gt _ hlen, if_neg hreport, rejectedState_eq]
  · rw [resetLoad_of_gt _ hlen]
    exact step_of_halted (s := rejectedState s.draws) nofun

/-- Settles O24, transaction by transaction. -/
theorem nothingBeforeTheFirstResetLoad : Obligations.NothingBeforeTheFirstResetLoad := by
  intro a ha
  cases a with
  | resetLoad rom => exact absurd rfl (ha rom)
  | step | tick | keys bits | drawAck => rfl

/-! ### The listed writers (10_state.md R20, R22, R31, R40) -/

/-- An instruction makes the writes of its form and else touches `PC`, `W` and the latch alone. -/
theorem exists_writes_of_exec {i : Instr} {s t : State} (ht : exec i s = .next t) :
    ∃ u, Writes s i u ∧ t = { u with pc := t.pc, w := t.w, fault := t.fault } := by
  have heff := exec_effect i s
  rw [ht] at heff
  cases heff with
  | completes u pc hw _ => exact ⟨u, hw, rfl⟩
  | waits _ => exact ⟨s, .nothing i, rfl⟩
  | faults c _ => exact ⟨s, .nothing i, rfl⟩

/-- Settles O28: one case for each way of writing, each of which leaves all but its own piece of state as it was. -/
theorem writersAreTheListedForms : Obligations.WritersAreTheListedForms := by
  intro i s t ht
  obtain ⟨u, hw, hu⟩ := exists_writes_of_exec ht
  rw [hu]
  clear hu ht
  cases hw with
  | nothing _ => simp [State.slot, State.pixel]
  | regs _ v _ => simp [State.slot, State.pixel]
  | random x nn b => simp [State.slot, State.pixel]
  | index _ a hi => simpa [State.slot, State.pixel] using fun _ => hi
  | bytes _ bs hi _ => simpa [State.slot, State.pixel, storeElements] using fun _ _ => hi
  | push nnn _ => simp [State.pixel]
  | pop sp => simp [State.slot, State.pixel]
  | delay x b => simp [State.slot, State.pixel]
  | sound x b => simp [State.slot, State.pixel]
  | clear fb => simp [State.slot]
  | sprite x y n flag fb => simp [State.slot]

/-- Settles O29: the register file is written by `Writes.regs`, whose registers are the listed ones, by `RND`, and as `VF`
by `DRW`. -/
theorem registersChangeOnlyAsListed : Obligations.RegistersChangeOnlyAsListed := by
  intro i s t r ht hne
  obtain ⟨u, hw, hu⟩ := exists_writes_of_exec ht
  have hru : u.reg r ≠ s.reg r := by rwa [hu] at hne
  cases hw with
  | regs _ v hv => exact hv r hru
  | random x nn b =>
    refine .inl (List.mem_singleton.mpr ?_)
    by_contra hrx
    exact hru (State.reg_setReg_ne s.countDraw x r b hrx)
  | sprite x y n flag fb =>
    refine .inr ⟨?_, rfl⟩
    by_contra hrf
    exact hru (State.reg_setReg_ne s VF r flag hrf)
  | _ => exact absurd rfl hru

/-- No write of an instruction reaches a key or clears `DIRTY` (R31, R30). -/
theorem Writes.host {s u : State} {i : Instr} (h : Writes s i u) :
    (∀ k : Fin 16, u.keyDown k = s.keyDown k) ∧ (s.dirty = true → u.dirty = true) := by
  cases h with
  | clear fb => exact ⟨fun _ => rfl, fun _ => rfl⟩
  | sprite x y n flag fb => exact ⟨fun _ => rfl, fun _ => rfl⟩
  | _ => exact ⟨fun _ => rfl, id⟩

/-- Settles O26: a halted engine's STEP changes nothing, and a running engine has no latched cause to keep. -/
theorem programCannotTouchTheHostsState : Obligations.ProgramCannotTouchTheHostsState := by
  intro s t ht
  obtain ⟨-, h⟩ | ⟨hf, -, h⟩ | ⟨hf, -, -, h⟩ | ⟨hf, -, i, -, h⟩ := step_cases ht
  · cases h
    exact ⟨fun _ => rfl, id, fun _ => rfl⟩
  · cases h
    exact ⟨fun _ => rfl, id, fun hne => absurd hf hne⟩
  · cases h
    exact ⟨fun _ => rfl, id, fun hne => absurd hf hne⟩
  · obtain ⟨u, hw, hu⟩ := exists_writes_of_exec h.symm
    obtain ⟨hkeys, hdirty⟩ := hw.host
    rw [hu]
    exact ⟨hkeys, hdirty, fun hne => absurd hf hne⟩

/-! ### What no program reads (10_state.md R30, R32; 60_exceptions.md R241) -/

/-- The state with other values of `ST`, `DIRTY` and `W`. -/
def State.withStatus (s : State) (st : Byte) (dirty w : Bool) : State := { s with st := st, dirty := dirty, w := w }

/-- Two answers are next states equal but for `ST`, `DIRTY` and `W`. -/
def SameButStatus (r r' : Result) : Prop := ∃ t, r = .next t ∧ ∃ st dirty w, r' = .next (t.withStatus st dirty w)

section

variable (s : State) (st : Byte) (dirty w : Bool)

theorem SameButStatus.next : SameButStatus (.next s) (.next (s.withStatus st dirty w)) := ⟨s, rfl, st, dirty, w, rfl⟩

theorem SameButStatus.complete (pc : Word) :
    SameButStatus (.next (s.complete pc)) (.next ((s.withStatus st dirty w).complete pc)) :=
  .next (s.complete pc) st dirty false

theorem SameButStatus.raise (c : Cause) : SameButStatus (raise c s) (Machine.raise c (s.withStatus st dirty w)) :=
  .next { s with fault := c } st dirty w

theorem SameButStatus.skipIf (c : Bool) :
    SameButStatus (.next (s.skipIf c)) (.next ((s.withStatus st dirty w).skipIf c)) := by
  cases c
  · exact .complete s st dirty w _
  · exact .complete s st dirty w _

end

/-- The condition of a check reads none of the three, so both runs take the same branch. -/
theorem SameButStatus.ite {c : Bool} {a a' b b' : Result} (h : SameButStatus a a') (h' : SameButStatus b b') :
    SameButStatus (if c then a else b) (if c then a' else b') := by
  cases c
  · exact h'
  · exact h

theorem execRet_withStatus (s : State) (st : Byte) (dirty w : Bool) :
    SameButStatus (execRet s) (execRet (s.withStatus st dirty w)) := by
  unfold execRet
  by_cases h : 0 < s.sp.val
  · rw [State.pop?_of_pos s h, State.pop?_of_pos (s.withStatus st dirty w) h]
    exact .next _ st dirty false
  · rw [State.pop?_of_empty s (Nat.eq_zero_of_not_pos h),
      State.pop?_of_empty (s.withStatus st dirty w) (Nat.eq_zero_of_not_pos h)]
    exact .raise s st dirty w _

theorem execCall_withStatus (nnn : Addr) (s : State) (st : Byte) (dirty w : Bool) :
    SameButStatus (execCall nnn s) (execCall nnn (s.withStatus st dirty w)) := by
  unfold execCall
  by_cases h : s.sp.val < 16
  · rw [State.push?_of_lt s _ h, State.push?_of_lt (s.withStatus st dirty w) _ h]
    exact .next _ st dirty false
  · rw [State.push?_of_full s _ h, State.push?_of_full (s.withStatus st dirty w) _ h]
    exact .raise s st dirty w _

theorem execSkp_withStatus (x : Reg) (s : State) (st : Byte) (dirty w : Bool) :
    SameButStatus (execSkp x s) (execSkp x (s.withStatus st dirty w)) := by
  unfold execSkp
  rw [show (s.withStatus st dirty w).reg x = s.reg x from rfl]
  cases keyIndex (s.reg x) with
  | some k => exact .skipIf s st dirty w _
  | none => exact .raise s st dirty w _

theorem execSknp_withStatus (x : Reg) (s : State) (st : Byte) (dirty w : Bool) :
    SameButStatus (execSknp x s) (execSknp x (s.withStatus st dirty w)) := by
  unfold execSknp
  rw [show (s.withStatus st dirty w).reg x = s.reg x from rfl]
  cases keyIndex (s.reg x) with
  | some k => exact .skipIf s st dirty w _
  | none => exact .raise s st dirty w _

theorem execLdVxK_withStatus (x : Reg) (s : State) (st : Byte) (dirty w : Bool) :
    SameButStatus (execLdVxK x s) (execLdVxK x (s.withStatus st dirty w)) := by
  unfold execLdVxK
  rw [show (s.withStatus st dirty w).key = s.key from rfl]
  cases lowestKey s.key with
  | some k => exact .next _ st dirty false
  | none => exact .next s.await st dirty true

/-- Every meaning: what it reads of the state is the same in both runs, and what it writes of the three it writes in both
alike or leaves. -/
theorem exec_withStatus (i : Instr) (s : State) (st : Byte) (dirty w : Bool) :
    SameButStatus (exec i s) (exec i (s.withStatus st dirty w)) := by
  cases i with
  | ret => exact execRet_withStatus s st dirty w
  | call nnn => exact execCall_withStatus nnn s st dirty w
  | seVxNn x nn | sneVxNn x nn | seVxVy x y | sneVxVy x y => exact .skipIf s st dirty w _
  | skp x => exact execSkp_withStatus x s st dirty w
  | sknp x => exact execSknp_withStatus x s st dirty w
  | ldVxK x => exact execLdVxK_withStatus x s st dirty w
  | drw x y n => exact .ite (.next _ st true false) (.raise s st dirty w _)
  | ldBVx x | ldIVx x | ldVxI x => exact .ite (.next _ st dirty false) (.raise s st dirty w _)
  | cls => exact .next _ st true false
  | ldSTVx x => exact .next _ (s.reg x) dirty false
  -- the remaining forms complete in every state and write neither `ST` nor `DIRTY`
  | _ => exact .next _ st dirty false

theorem fetchWord_withStatus (s : State) (st : Byte) (dirty w : Bool) :
    fetchWord (s.withStatus st dirty w) = fetchWord s :=
  fetchWord_congr rfl rfl

/-- A fetched word, known or unknown (R103, R105). -/
theorem execWord_withStatus (op : Word) (s : State) (st : Byte) (dirty w : Bool) :
    SameButStatus (execWord op s) (execWord op (s.withStatus st dirty w)) := by
  cases hd : decode op with
  | some i =>
    rw [execWord_of_some s hd, execWord_of_some _ hd]
    exact exec_withStatus i s st dirty w
  | none =>
    rw [execWord_of_none s hd, execWord_of_none _ hd]
    exact .complete s st dirty w _

/-- Settles O27: halt check, fetch, decode and every meaning take the same way whatever the three hold. -/
theorem statusOutputsAreNeverRead : Obligations.StatusOutputsAreNeverRead := by
  intro s st dirty w
  change SameButStatus (step s) (step (s.withStatus st dirty w))
  by_cases hf : s.fault = .noFault
  · have hf' : (s.withStatus st dirty w).fault = .noFault := hf
    cases hw : fetchWord s with
    | some op =>
      rw [step_of_fetch_some hf hw, step_of_fetch_some hf' ((fetchWord_withStatus s st dirty w).trans hw)]
      exact execWord_withStatus op s st dirty w
    | none =>
      rw [step_of_fetch_none hf hw, step_of_fetch_none hf' ((fetchWord_withStatus s st dirty w).trans hw)]
      exact .raise s st dirty w _
  · rw [step_of_halted hf, step_of_halted (s := s.withStatus st dirty w) hf]
    exact .next s st dirty w

end Sys2Proof.Machine

/-! ### Memory: the fetch, stored code, the canonical form (20_memory.md R50, R51, R54, R62) -/

namespace Sys2Proof.Machine

/-! #### The fetch (R54) -/

/-- The high byte of a word holds `top` and `x` (R54). -/
theorem highByte_toNat_eq_fields (op : Word) : (highByte op).toNat = (fieldTop op).toNat * 16 + (fieldX op).val := by
  rw [highByte_toNat, fieldTop_toNat, fieldX_val]
  omega

/-- Settles O8: the two bytes at `PC` are the high and the low byte of the fetched word, and the low byte is the field `nn`. -/
theorem fetchIsBigEndian : Obligations.FetchIsBigEndian := by
  intro s hpc
  refine ⟨_, fetchWord_of_le s hpc, wordOfBytes_toNat _ _, ?_, ?_⟩
  · rw [← highByte_toNat_eq_fields, highByte_wordOfBytes]
  · exact (lowByte_wordOfBytes _ _).symm

/-! #### Stored code (R62, R173, R175) -/

theorem exec_ldIVx_of_fits {x : Reg} {s : State} (h : s.i.toNat + x.val ≤ 0xFFF) :
    exec (.ldIVx x) s = .next (storeElements s (regsUpTo s x)).next :=
  if_pos ((accessFits_iff s (x.val + 1)).mpr (.inr h))

theorem exec_ldBVx_of_fits {x : Reg} {s : State} (h : s.i.toNat + 2 ≤ 0xFFF) :
    exec (.ldBVx x) s = .next (storeElements s (bcdDigits (s.reg x))).next :=
  if_pos ((accessFits_iff s 3).mpr (.inr h))

/-- The fetch reads memory as it is now: a state with the memory of `t` runs the word of the bytes `t` holds at its `PC`
(R62, R101). -/
theorem RunsWord.of_sameMem {t u : State} {byteAt : Nat → Byte} (hread : ∀ a, t.mem.read a = byteAt a) (hmem : SameMem t u)
    (hpc : u.pc.toNat ≤ 4094) : RunsWord u (wordOfBytes (byteAt u.pc.toNat) (byteAt (u.pc.toNat + 1))) := by
  rw [← hread, ← hread, ← hmem, ← hmem]
  exact .of_fetchWord (fetchWord_of_le u hpc)

/-- Settles O47: each store leaves the bytes the claim names, address by address, and a later fetch reads those. -/
theorem storesAreFetched : Obligations.StoresAreFetched := by
  refine ⟨fun x s t u hfit ht hmem hpc => ?_, fun x s t u hfit ht hmem hpc => ?_⟩
  · cases (exec_ldIVx_of_fits hfit).symm.trans ht
    exact .of_sameMem (read_storeElements_regsUpTo s x) hmem hpc
  · cases (exec_ldBVx_of_fits hfit).symm.trans ht
    exact .of_sameMem (read_storeElements_bcdDigits s x) hmem hpc

/-! #### The canonical form (log 6) -/

theorem Memory.rising_cons (lo k : Nat) (b : Byte) (m : Memory) :
    Memory.rising lo ((k, b) :: m) = true ↔ lo ≤ k ∧ Memory.rising (k + 1) m = true := by
  simp [Memory.rising]

theorem Memory.read_cons_same (k : Nat) (b : Byte) (m : Memory) : Memory.read ((k, b) :: m) k = b := if_pos rfl

theorem Memory.read_cons_ne {k a : Nat} (b : Byte) (m : Memory) (h : k ≠ a) :
    Memory.read ((k, b) :: m) a = m.read a := if_neg h

/-- Below its first address a rising memory has no entry. -/
theorem Memory.read_of_lt_rising {m : Memory} {a : Nat} : ∀ {lo : Nat}, Memory.rising lo m = true → a < lo →
    m.read a = Memory.unlisted a := by
  induction m with
  | nil => intros; rfl
  | cons c m ih =>
    obtain ⟨k, b⟩ := c
    intro lo hm hlt
    obtain ⟨hlo, hm⟩ := (Memory.rising_cons lo k b m).mp hm
    rw [Memory.read_cons_ne b m (by omega)]
    exact ih hm (by omega)

/-- Where two memories read alike, an address the one lists with a byte of its own is not below the first address of the
other. -/
theorem Memory.head_le_of_read_eq {m m' : Memory} {k k' : Nat} {b b' : Byte} (hm' : Memory.rising (k' + 1) m' = true)
    (hread : ∀ a, Memory.read ((k, b) :: m) a = Memory.read ((k', b') :: m') a) (hb : b ≠ Memory.unlisted k) : k' ≤ k := by
  by_contra hlt
  refine hb ?_
  rw [← Memory.read_cons_same k b m, hread, Memory.read_cons_ne b' m' (by omega),
    Memory.read_of_lt_rising hm' (by omega)]

/-- Rising memories whose every entry differs from what its address reads as when unlisted are equal where they read
alike. -/
theorem Memory.eq_of_read_eq (m : Memory) : ∀ (m' : Memory) (lo : Nat), Memory.rising lo m = true →
    Memory.rising lo m' = true → (∀ c ∈ m, c.2 ≠ Memory.unlisted c.1) → (∀ c ∈ m', c.2 ≠ Memory.unlisted c.1) →
    (∀ a, m.read a = m'.read a) → m = m' := by
  induction m with
  | nil =>
    intro m' _ _ _ _ hown' hread
    cases m' with
    | nil => rfl
    | cons c m' =>
      obtain ⟨k', b'⟩ := c
      exact absurd ((hread k').trans (Memory.read_cons_same k' b' m')).symm (hown' _ List.mem_cons_self)
  | cons c m ih =>
    obtain ⟨k, b⟩ := c
    intro m' lo hm hm' hown hown' hread
    cases m' with
    | nil => exact absurd ((Memory.read_cons_same k b m).symm.trans (hread k)) (hown _ List.mem_cons_self)
    | cons c' m' =>
      obtain ⟨k', b'⟩ := c'
      obtain ⟨hb, htail⟩ := List.forall_mem_cons.mp hown
      obtain ⟨hb', htail'⟩ := List.forall_mem_cons.mp hown'
      obtain ⟨-, hrise⟩ := (Memory.rising_cons lo k b m).mp hm
      obtain ⟨-, hrise'⟩ := (Memory.rising_cons lo k' b' m').mp hm'
      obtain rfl : k = k' := le_antisymm (Memory.head_le_of_read_eq hrise (fun a => (hread a).symm) hb')
        (Memory.head_le_of_read_eq hrise' hread hb)
      obtain rfl : b = b' := by simpa only [Memory.read_cons_same] using hread k
      refine congrArg ((k, b) :: ·) (ih m' (k + 1) hrise hrise' htail htail' fun a => ?_)
      by_cases ha : k = a
      · subst ha
        rw [Memory.read_of_lt_rising hrise k.lt_succ_self, Memory.read_of_lt_rising hrise' k.lt_succ_self]
      · simpa only [Memory.read_cons_ne _ _ ha] using hread a

/-- Settles O48: both canonical memories rise from address 0 and hold no entry that an unlisted address would read as. -/
theorem canonicalMemoriesAreEqual : Obligations.CanonicalMemoriesAreEqual := by
  intro m m' hm hm' hread
  obtain ⟨hrise, hcells⟩ := (Memory.wf_iff m).mp hm
  obtain ⟨hrise', hcells'⟩ := (Memory.wf_iff m').mp hm'
  exact Memory.eq_of_read_eq m m' 0 hrise hrise' (fun c hc => (hcells c hc).2) (fun c hc => (hcells' c hc).2) hread

end Sys2Proof.Machine

/-! ### Decoding and encoding (30_encoding.md R70 to R82) -/

namespace Sys2Proof

/-! #### From an instruction to its word and back (R71, R72) -/

/-- Every format gives back the fields put into it, and they select the form again. -/
theorem decode_encode (i : Instr) : decode (encode i) = some i := by
  cases i with
  | cls | ret => simp [encode, decode, decodeGroup0]
  | jp | call | ldINnn | jpV0 => simp [encode, decode]
  | seVxNn | sneVxNn | ldVxNn | addVxNn | rnd => simp [encode, decode]
  | seVxVy | sneVxVy | drw => simp [encode, decode]
  | ldVxVy | orVxVy | andVxVy | xorVxVy | addVxVy | subVxVy | shrVx | subnVxVy | shlVx =>
    simp [encode, decode, decodeGroup8]
  | skp | sknp => simp [encode, decode, decodeGroupE]
  | ldVxDT | ldVxK | ldDTVx | ldSTVx | addIVx | ldFVx | ldBVx | ldIVx | ldVxI => simp [encode, decode, decodeGroupF]

theorem decodeBytes_encodeBytes (i : Instr) (rest : List Byte) : decodeBytes (encodeBytes i ++ rest) = .ok (i, rest) := by
  change decodeBytes (highByte (encode i) :: lowByte (encode i) :: rest) = _
  rw [decodeBytes_cons, wordOfBytes_high_low, decode_encode]

/-- Settles O1: the word by the round trip of every form, the two bytes because they make up that word again. -/
theorem decodeOfEncode : Obligations.DecodeOfEncode :=
  fun i => ⟨decode_encode i, decodeBytes_encodeBytes i⟩

/-! #### From a word to its instruction and back (R74) -/

/-- A word with the bits cleared that its group ignores and no term carries: bits 11..8 in group 0, bits 3..0 in groups 5
and 9 (R74, log 16). -/
def clearIgnored (op : Word) : Word :=
  if op.toNat / 0x1000 = 0 then op &&& 0xF0FF
  else if op.toNat / 0x1000 = 5 ∨ op.toNat / 0x1000 = 9 then op &&& 0xFFF0
  else op

section formatsOfFields

variable {op : Word} {t : Nibble}

theorem fieldTop_eq_of_toNat (h : (fieldTop op).toNat = t.toNat) : fieldTop op = t := BitVec.eq_of_toNat_eq h

theorem formatA_of_fields (h : (fieldTop op).toNat = t.toNat) : formatA t (fieldNnn op) = op := by
  rw [← fieldTop_eq_of_toNat h, ← eq_formatA]

theorem formatXB_of_fields (h : (fieldTop op).toNat = t.toNat) : formatXB t (fieldX op) (fieldNn op) = op := by
  rw [← fieldTop_eq_of_toNat h, ← eq_formatXB]

theorem formatXYN_of_fields (h : (fieldTop op).toNat = t.toNat) :
    formatXYN t (fieldX op) (fieldY op) (fieldN op) = op := by
  rw [← fieldTop_eq_of_toNat h, ← eq_formatXYN]

theorem clearIgnored_of_top_0 (h : (fieldTop op).toNat = 0) : clearIgnored op = formatXB 0 0 (fieldNn op) := by
  rw [clearIgnored, ← fieldTop_toNat, if_pos h, and_F0FF, fieldTop_eq_of_toNat (t := 0) h]

theorem clearIgnored_of_top_5_9 (ht : t = 5 ∨ t = 9) (h : (fieldTop op).toNat = t.toNat) :
    clearIgnored op = formatXYN t (fieldX op) (fieldY op) 0 := by
  have h0 : (fieldTop op).toNat ≠ 0 := by rcases ht with rfl | rfl <;> simp [h]
  have h59 : (fieldTop op).toNat = 5 ∨ (fieldTop op).toNat = 9 := by rcases ht with rfl | rfl <;> simp [h]
  rw [clearIgnored, ← fieldTop_toNat, if_neg h0, if_pos h59, and_FFF0, fieldTop_eq_of_toNat h]

theorem clearIgnored_of_top {k : Nat} (h : (fieldTop op).toNat = k) (hk : k ∉ [0, 5, 9]) : clearIgnored op = op := by
  simp_all [clearIgnored, fieldTop_toNat]

end formatsOfFields

/-! The four groups with a selector: the encoding puts the selector back where the decoder found it. -/

theorem encode_of_decodeGroup0 {op : Word} {i : Instr} (h : decodeGroup0 op = some i) :
    encode i = formatXB 0 0 (fieldNn op) := by
  unfold decodeGroup0 at h
  split at h <;> cases h <;> exact congrArg (formatXB 0 0) (BitVec.eq_of_toNat_eq (Eq.symm ‹_›))

theorem encode_of_decodeGroup8 {op : Word} {i : Instr} (h : decodeGroup8 op = some i) :
    encode i = formatXYN 8 (fieldX op) (fieldY op) (fieldN op) := by
  unfold decodeGroup8 at h
  split at h <;> cases h <;> exact congrArg (formatXYN 8 _ _) (BitVec.eq_of_toNat_eq (Eq.symm ‹_›))

theorem encode_of_decodeGroupE {op : Word} {i : Instr} (h : decodeGroupE op = some i) :
    encode i = formatXB 0xE (fieldX op) (fieldNn op) := by
  unfold decodeGroupE at h
  split at h <;> cases h <;> exact congrArg (formatXB 0xE _) (BitVec.eq_of_toNat_eq (Eq.symm ‹_›))

theorem encode_of_decodeGroupF {op : Word} {i : Instr} (h : decodeGroupF op = some i) :
    encode i = formatXB 0xF (fieldX op) (fieldNn op) := by
  unfold decodeGroupF at h
  split at h <;> cases h <;> exact congrArg (formatXB 0xF _) (BitVec.eq_of_toNat_eq (Eq.symm ‹_›))

/-- The arms of the decoder, by their format (R72); the last is that of no nibble. -/
theorem encode_eq_clearIgnored {op : Word} {i : Instr} (h : decode op = some i) : encode i = clearIgnored op := by
  unfold decode at h
  split at h
  case h_1 ht => rw [encode_of_decodeGroup0 h, clearIgnored_of_top_0 ht]
  case h_9 ht => rw [encode_of_decodeGroup8 h, clearIgnored_of_top ht (by decide)]; exact formatXYN_of_fields ht
  case h_15 ht => rw [encode_of_decodeGroupE h, clearIgnored_of_top ht (by decide)]; exact formatXB_of_fields ht
  case h_16 ht => rw [encode_of_decodeGroupF h, clearIgnored_of_top ht (by decide)]; exact formatXB_of_fields ht
  all_goals cases h
  case h_2.refl ht | h_3.refl ht | h_11.refl ht | h_12.refl ht =>
    rw [clearIgnored_of_top ht (by decide)]; exact formatA_of_fields ht
  case h_4.refl ht | h_5.refl ht | h_7.refl ht | h_8.refl ht | h_13.refl ht =>
    rw [clearIgnored_of_top ht (by decide)]; exact formatXB_of_fields ht
  case h_14.refl ht => rw [clearIgnored_of_top ht (by decide)]; exact formatXYN_of_fields ht
  case h_6.refl ht => exact (clearIgnored_of_top_5_9 (.inl rfl) ht).symm
  case h_10.refl ht => exact (clearIgnored_of_top_5_9 (.inr rfl) ht).symm

/-- Settles O2: what the encoding leaves out of the word is what `clearIgnored` clears. -/
theorem encodeOfDecode : Obligations.EncodeOfDecode := fun _ _ => encode_eq_clearIgnored

/-! #### The unknown words (R78) -/

theorem decodeGroup0_eq_none_iff (op : Word) : decodeGroup0 op = none ↔ (fieldNn op).toNat ∉ [0xE0, 0xEE] := by
  unfold decodeGroup0
  split <;> simp_all

theorem decodeGroup8_eq_none_iff (op : Word) :
    decodeGroup8 op = none ↔ (fieldN op).toNat ∈ [0x8, 0x9, 0xA, 0xB, 0xC, 0xD, 0xF] := by
  have := (fieldN op).isLt
  unfold decodeGroup8
  split
  case h_10 => simp only [imp_false, List.mem_cons, List.not_mem_nil, or_false, true_iff] at *; omega
  all_goals simp_all

theorem decodeGroupE_eq_none_iff (op : Word) : decodeGroupE op = none ↔ (fieldNn op).toNat ∉ [0x9E, 0xA1] := by
  unfold decodeGroupE
  split <;> simp_all

theorem decodeGroupF_eq_none_iff (op : Word) :
    decodeGroupF op = none ↔ (fieldNn op).toNat ∉ [0x07, 0x0A, 0x15, 0x18, 0x1E, 0x29, 0x33, 0x55, 0x65] := by
  unfold decodeGroupF
  split <;> simp_all

/-- Only the groups with a selector have unknown words. -/
theorem decode_eq_none_iff (op : Word) : decode op = none ↔
    ((fieldTop op).toNat = 0x0 ∧ decodeGroup0 op = none) ∨ ((fieldTop op).toNat = 0x8 ∧ decodeGroup8 op = none) ∨
    ((fieldTop op).toNat = 0xE ∧ decodeGroupE op = none) ∨ ((fieldTop op).toNat = 0xF ∧ decodeGroupF op = none) := by
  have := (fieldTop op).isLt
  unfold decode
  split
  case h_17 => simp only [imp_false] at *; omega
  all_goals simp_all

/-- Settles O4: the selectors of each group, with the fields read as numbers. -/
theorem unknownWordsAreExactly : Obligations.UnknownWordsAreExactly := by
  intro op
  rw [decode_eq_none_iff, decodeGroup0_eq_none_iff, decodeGroup8_eq_none_iff, decodeGroupE_eq_none_iff,
    decodeGroupF_eq_none_iff, fieldTop_toNat, fieldN_toNat, fieldNn_toNat]

/-! #### Words written out (R75, R76) -/

/-- Settles O5: the shown bytes by evaluation, the forms read off them by the round trip. -/
theorem shownEncodingsDecode : Obligations.ShownEncodingsDecode := by
  refine ⟨by decide, by decide, by decide, by decide, by decide, fun x nn => decode_encode (.ldVxNn x nn), fun x y => ?_,
    fun x y n => decode_encode (.drw x y n)⟩
  have hword : BitVec.ofNat 16 (0x8004 + x.val * 0x100 + y.val * 0x10) = encode (.addVxVy x y) :=
    congrArg (BitVec.ofNat 16) (by change _ = 0x8000 + x.val * 0x100 + y.val * 0x10 + 4; omega)
  rw [hword, decode_encode]

/-- Settles O6: each word is evaluated. -/
theorem writtenOutWordsDecode : Obligations.WrittenOutWordsDecode :=
  ⟨by decide, by decide, by decide, by decide, by decide, by decide⟩

/-! #### The opcode map (R76) -/

/-- The bits that take part in the choice of a form in the group `t`: the top nibble, and `nn` or `n` where the group
has a selector (R74, D3). -/
def selectorMask (t : Nibble) : Word :=
  if t = 0x0 ∨ t = 0xE ∨ t = 0xF then 0xF0FF else if t = 0x8 then 0xF00F else 0xF000

/-! What every row satisfies, read off the table. -/

theorem OpcodeRow.mask_eq_of_mem : ∀ row ∈ opcodeRows, row.mask = selectorMask (fieldTop row.word) := by decide

theorem OpcodeRow.decode_word_ne_none : ∀ row ∈ opcodeRows, decode row.word ≠ none := by decide

theorem OpcodeRow.eq_of_word_eq {row row' : OpcodeRow} (h : row ∈ opcodeRows) (h' : row' ∈ opcodeRows)
    (hw : row.word = row'.word) : row = row' :=
  List.inj_on_of_nodup_map (f := OpcodeRow.word) (by decide) h h' hw

theorem OpcodeRow.eq_of_mnemonic_eq {row row' : OpcodeRow} (h : row ∈ opcodeRows) (h' : row' ∈ opcodeRows)
    (hm : row.mnemonic = row'.mnemonic) : row = row' :=
  List.inj_on_of_nodup_map (f := OpcodeRow.mnemonic) (by decide) h h' hm

theorem and_mask_and_mask (op m : Word) : op &&& m &&& m = op &&& m := by rw [BitVec.and_assoc, BitVec.and_self]

theorem fieldTop_and_F000 (op : Word) : fieldTop (op &&& 0xF000) = fieldTop op :=
  ((and_F000_eq op _ (and_mask_and_mask op _)).mp rfl).symm

theorem fieldTop_and_F0FF (op : Word) : fieldTop (op &&& 0xF0FF) = fieldTop op := by rw [and_F0FF, fieldTop_formatXB]

theorem fieldNn_and_F0FF (op : Word) : fieldNn (op &&& 0xF0FF) = fieldNn op := by rw [and_F0FF, fieldNn_formatXB]

theorem fieldTop_fieldN_and_F00F (op : Word) :
    fieldTop op = fieldTop (op &&& 0xF00F) ∧ fieldN op = fieldN (op &&& 0xF00F) :=
  (and_F00F_eq op _ (and_mask_and_mask op _)).mp rfl

theorem fieldTop_and_FFF0 (op : Word) : fieldTop (op &&& 0xFFF0) = fieldTop op := by rw [and_FFF0, fieldTop_formatXYN]

theorem fieldTop_and_selectorMask (op : Word) (t : Nibble) : fieldTop (op &&& selectorMask t) = fieldTop op := by
  unfold selectorMask
  split_ifs
  · exact fieldTop_and_F0FF op
  · exact (fieldTop_fieldN_and_F00F op).1.symm
  · exact fieldTop_and_F000 op

theorem fieldN_and_selectorMask (op : Word) : fieldN (op &&& selectorMask 8) = fieldN op :=
  (fieldTop_fieldN_and_F00F op).2.symm

theorem fieldNn_and_selectorMask (op : Word) {t : Nibble} (ht : t = 0x0 ∨ t = 0xE ∨ t = 0xF) :
    fieldNn (op &&& selectorMask t) = fieldNn op := by
  rw [selectorMask, if_pos ht, fieldNn_and_F0FF]

/-- A word matches the row whose word is left of it when the bits that choose no form are cleared. -/
theorem OpcodeRow.matches_iff {row : OpcodeRow} (hrow : row ∈ opcodeRows) (op : Word) :
    row.matches op = true ↔ op &&& selectorMask (fieldTop op) = row.word := by
  rw [OpcodeRow.matches, beq_iff_eq, OpcodeRow.mask_eq_of_mem row hrow]
  constructor
  all_goals
    intro h
    have ht := congrArg fieldTop h
    rw [fieldTop_and_selectorMask] at ht
    simpa only [ht] using h

theorem OpcodeRow.eq_of_matches {row row' : OpcodeRow} {op : Word} (hrow : row ∈ opcodeRows)
    (hrow' : row' ∈ opcodeRows) (h : row.matches op = true) (h' : row'.matches op = true) : row = row' :=
  OpcodeRow.eq_of_word_eq hrow hrow'
    (((OpcodeRow.matches_iff hrow op).mp h).symm.trans ((OpcodeRow.matches_iff hrow' op).mp h'))

/-- The ignored bits choose no form. -/
theorem clearIgnored_and_selectorMask (op : Word) :
    clearIgnored op &&& selectorMask (fieldTop (clearIgnored op)) = op &&& selectorMask (fieldTop op) := by
  unfold clearIgnored
  rw [← fieldTop_toNat]
  split_ifs with h0 h59
  · rw [fieldTop_and_F0FF, fieldTop_eq_of_toNat (t := 0) h0]
    exact and_mask_and_mask op 0xF0FF
  · have hmask : selectorMask (fieldTop op) = 0xF000 := by
      rcases h59 with h | h
      · rw [fieldTop_eq_of_toNat (t := 5) h]; rfl
      · rw [fieldTop_eq_of_toNat (t := 9) h]; rfl
    rw [fieldTop_and_FFF0, hmask, BitVec.and_assoc]
    rfl
  · rfl

theorem matches_of_matches_clearIgnored {row : OpcodeRow} (hrow : row ∈ opcodeRows) {op : Word}
    (h : row.matches (clearIgnored op) = true) : row.matches op = true := by
  rwa [OpcodeRow.matches_iff hrow, clearIgnored_and_selectorMask, ← OpcodeRow.matches_iff hrow] at h

/-- The rows of the forms, put together. -/
theorem inItsRow : ∀ i : Instr, Laws.InItsRow.Statement i
  | .cls => Laws.InItsRow.cls
  | .ret => Laws.InItsRow.ret
  | .jp nnn => Laws.InItsRow.jp nnn
  | .call nnn => Laws.InItsRow.call nnn
  | .seVxNn x nn => Laws.InItsRow.seVxNn x nn
  | .sneVxNn x nn => Laws.InItsRow.sneVxNn x nn
  | .seVxVy x y => Laws.InItsRow.seVxVy x y
  | .ldVxNn x nn => Laws.InItsRow.ldVxNn x nn
  | .addVxNn x nn => Laws.InItsRow.addVxNn x nn
  | .ldVxVy x y => Laws.InItsRow.ldVxVy x y
  | .orVxVy x y => Laws.InItsRow.orVxVy x y
  | .andVxVy x y => Laws.InItsRow.andVxVy x y
  | .xorVxVy x y => Laws.InItsRow.xorVxVy x y
  | .addVxVy x y => Laws.InItsRow.addVxVy x y
  | .subVxVy x y => Laws.InItsRow.subVxVy x y
  | .shrVx x y => Laws.InItsRow.shrVx x y
  | .subnVxVy x y => Laws.InItsRow.subnVxVy x y
  | .shlVx x y => Laws.InItsRow.shlVx x y
  | .sneVxVy x y => Laws.InItsRow.sneVxVy x y
  | .ldINnn nnn => Laws.InItsRow.ldINnn nnn
  | .jpV0 nnn => Laws.InItsRow.jpV0 nnn
  | .rnd x nn => Laws.InItsRow.rnd x nn
  | .drw x y n => Laws.InItsRow.drw x y n
  | .skp x => Laws.InItsRow.skp x
  | .sknp x => Laws.InItsRow.sknp x
  | .ldVxDT x => Laws.InItsRow.ldVxDT x
  | .ldVxK x => Laws.InItsRow.ldVxK x
  | .ldDTVx x => Laws.InItsRow.ldDTVx x
  | .ldSTVx x => Laws.InItsRow.ldSTVx x
  | .addIVx x => Laws.InItsRow.addIVx x
  | .ldFVx x => Laws.InItsRow.ldFVx x
  | .ldBVx x => Laws.InItsRow.ldBVx x
  | .ldIVx x => Laws.InItsRow.ldIVx x
  | .ldVxI x => Laws.InItsRow.ldVxI x

/-- A known word lies in the row of its mnemonic, since its encoding does. -/
theorem exists_row_of_decode {op : Word} {i : Instr} (h : decode op = some i) :
    ∃ row ∈ opcodeRows, row.mnemonic = i.mnemonic ∧ row.matches op = true := by
  obtain ⟨row, hrow, hm, hmatch⟩ := inItsRow i
  rw [encode_eq_clearIgnored h] at hmatch
  exact ⟨row, hrow, hm, matches_of_matches_clearIgnored hrow hmatch⟩

/-- Whether a word is known hangs on the bits alone that choose a form (R74, R78). -/
theorem decode_and_selectorMask_eq_none_iff (op : Word) :
    decode (op &&& selectorMask (fieldTop op)) = none ↔ decode op = none := by
  rw [decode_eq_none_iff, decode_eq_none_iff op, fieldTop_and_selectorMask]
  refine or_congr (and_congr_right fun h => ?_) (or_congr (and_congr_right fun h => ?_)
    (or_congr (and_congr_right fun h => ?_) (and_congr_right fun h => ?_)))
  · rw [fieldTop_eq_of_toNat (t := 0x0) h, decodeGroup0_eq_none_iff, decodeGroup0_eq_none_iff,
      fieldNn_and_selectorMask op (by decide)]
  · rw [fieldTop_eq_of_toNat (t := 0x8) h, decodeGroup8_eq_none_iff, decodeGroup8_eq_none_iff,
      fieldN_and_selectorMask]
  · rw [fieldTop_eq_of_toNat (t := 0xE) h, decodeGroupE_eq_none_iff, decodeGroupE_eq_none_iff,
      fieldNn_and_selectorMask op (by decide)]
  · rw [fieldTop_eq_of_toNat (t := 0xF) h, decodeGroupF_eq_none_iff, decodeGroupF_eq_none_iff,
      fieldNn_and_selectorMask op (by decide)]

theorem decode_ne_none_of_matches {row : OpcodeRow} (hrow : row ∈ opcodeRows) {op : Word} (h : row.matches op = true) :
    decode op ≠ none := by
  rw [ne_eq, ← decode_and_selectorMask_eq_none_iff, (OpcodeRow.matches_iff hrow op).mp h]
  exact OpcodeRow.decode_word_ne_none row hrow

theorem exists_decode_of_matches {row : OpcodeRow} (hrow : row ∈ opcodeRows) {op : Word} (h : row.matches op = true) :
    ∃ i, decode op = some i ∧ i.mnemonic = row.mnemonic := by
  obtain ⟨i, hi⟩ := Option.ne_none_iff_exists'.mp (decode_ne_none_of_matches hrow h)
  obtain ⟨row', hrow', hm, h'⟩ := exists_row_of_decode hi
  exact ⟨i, hi, by rw [OpcodeRow.eq_of_matches hrow hrow' h h', hm]⟩

theorem matches_of_decode {row : OpcodeRow} (hrow : row ∈ opcodeRows) {op : Word} {i : Instr} (hi : decode op = some i)
    (hm : i.mnemonic = row.mnemonic) : row.matches op = true := by
  obtain ⟨row', hrow', hm', h⟩ := exists_row_of_decode hi
  rwa [OpcodeRow.eq_of_mnemonic_eq hrow hrow' (hm.symm.trans hm'.symm)]

/-- Settles O3: a known word lies in the row of its mnemonic and in no other, and a word in a row is known. -/
theorem opcodeMapGovernsDecode : Obligations.OpcodeMapGovernsDecode := by
  refine fun op => ⟨fun row hrow => ⟨exists_decode_of_matches hrow, fun ⟨_, hi, hm⟩ => matches_of_decode hrow hi hm⟩,
    fun _ hrow _ hrow' => OpcodeRow.eq_of_matches hrow hrow', fun hnone row hrow => ?_, fun hno => ?_⟩
  · exact Bool.eq_false_of_not_eq_true fun h => decode_ne_none_of_matches hrow h hnone
  · by_contra hsome
    obtain ⟨i, hi⟩ := Option.ne_none_iff_exists'.mp hsome
    obtain ⟨row, hrow, -, h⟩ := exists_row_of_decode hi
    exact absurd h (by simp [hno row hrow])

end Sys2Proof

/-! ### The step cycle (40_step_cycle.md R100 to R108) -/

namespace Sys2Proof.Machine

/-! #### Fetch and decode (R101, R102) -/

theorem decodeBytes_cons_eq_ok_iff (hi lo : Byte) (rest : List Byte) (i : Instr) :
    decodeBytes (hi :: lo :: rest) = .ok (i, rest) ↔ decode (wordOfBytes hi lo) = some i := by
  rw [decodeBytes_cons]
  cases decode (wordOfBytes hi lo) <;> simp

/-- Settles O7: the two bytes at `PC` are the fetched word, and a running engine executes what that word decodes to. -/
theorem stepRunsTheDecodedInstruction : Obligations.StepRunsTheDecodedInstruction := by
  intro s i hf hpc hdec
  rw [decodeBytes_cons_eq_ok_iff] at hdec
  rw [step_of_fetch_some hf (fetchWord_of_le s hpc), execWord_of_some s hdec]

/-- Settles O9: with `PC` above 4094 there is no word to fetch, and the fault that is raised is precise. -/
theorem fetchAboveMemoryFaults : Obligations.FetchAboveMemoryFaults := by
  intro s hf hpc
  rw [step_of_fetch_none hf (fetchWord_of_gt s hpc)]
  exact ⟨.raise _ s, rfl⟩

/-- In a running engine with `PC` at most 4094 a placement writes the bytes at `PC` and nothing else (log 5). -/
theorem placeAtPC_of_running {s : State} (hf : s.fault = .noFault) (hpc : s.pc.toNat ≤ 4094) (bs : List Byte) :
    placeAtPC s bs = s.setMem (s.mem.writeBytes s.pc.toNat bs) := by
  simp only [placeAtPC, State.setMem, if_pos hpc, ← hf]

/-- Settles O56: the step executes the placed word, whatever stood at `PC` before. -/
theorem placedWordRuns : Obligations.PlacedWordRuns := by
  intro s nbits w i hdec
  rw [decodeTableWord_eq] at hdec
  refine ⟨(step_withFetchWord s nbits w).trans (execWord_of_some _ hdec), fun hf hpc => ?_⟩
  rw [State.withFetchWord, placeAtPC_of_running hf hpc]
  rfl

/-! #### The report of a STEP (R105, R106, R108) -/

theorem stepReport_of_halted {s : State} (h : s.fault ≠ .noFault) (t : State) : stepReport s t = .halted := by
  simp only [stepReport, (State.halted_eq_true_iff s).mpr h, if_true]

theorem stepReport_of_completed {s t : State} (hs : s.fault = .noFault) (ht : t.fault = .noFault) (hw : t.w = false) :
    stepReport s t = .completed (unknownEvent s) := by
  simp only [stepReport, (State.halted_eq_false_iff s).mpr hs, (State.halted_eq_false_iff t).mpr ht, hw,
    Bool.false_eq_true, if_false]

theorem unknownEvent_of_unknown {s : State} {op : Word} (hop : fetchWord s = some op) (hdec : decode op = none) :
    unknownEvent s = some { op := op, pc := s.pc } := by
  simp only [unknownEvent, hop, hdec, Option.isNone_none, if_true]

/-- Settles O10: the no-op is `next`, and its report carries the word and the `PC` it was fetched from. -/
theorem unknownWordIsANoOp : Obligations.UnknownWordIsANoOp := by
  intro s op hf hop hdec
  refine ⟨s.next, ?_, rfl, rfl, .next s, ?_⟩
  · rw [step_of_fetch_some hf hop, execWord_of_none s hdec]
  · rw [stepReport_of_completed (t := s.next) hf hf rfl, unknownEvent_of_unknown hop hdec]

/-- Settles O11: both the step and its report ask the latch first. -/
theorem haltedStepChangesNothing : Obligations.HaltedStepChangesNothing :=
  fun s hf => ⟨step_of_halted hf, stepReport_of_halted hf s⟩

/-! #### The awaiting flag (R107, 10_state.md R32) -/

/-- An instruction that latches a cause leaves `W` as it was: the other endings keep the latch clear (R233). -/
theorem Ending.w_eq_of_fault {s t : State} (h : Ending s (.next t)) (hs : s.fault = .noFault)
    (ht : t.fault ≠ .noFault) : t.w = s.w := by
  cases h with
  | completes u pc hfault => exact absurd (hfault.trans hs) ht
  | waits => exact absurd hs ht
  | faults c _ => rfl

/-- Where the answer is a next state with the latch clear, `W` is clear in it. -/
def ClearsW (r : Result) : Prop := ∀ t, r = .next t → t.fault = .noFault → t.w = false

theorem ClearsW.complete (s : State) (pc : Word) : ClearsW (.next (s.complete pc)) := by
  rintro _ ⟨⟩ -
  rfl

theorem ClearsW.raise (s : State) {c : Cause} (hc : c ≠ .noFault) : ClearsW (raise c s) := by
  rintro _ ⟨⟩ hlatch
  exact absurd hlatch hc

theorem ClearsW.skipIf (s : State) (c : Bool) : ClearsW (.next (s.skipIf c)) := by
  rw [State.skipIf_eq]
  exact .complete s _

theorem ClearsW.checked (s t : State) (c : Bool) :
    ClearsW (if c then .next t.next else Machine.raise .memOutOfBounds s) := by
  cases c
  · exact .raise s (by decide)
  · exact .complete t _

/-- Every form but `LD Vx,K` completes, which clears `W`, or faults (R107, R212). -/
theorem exec_clearsW {i : Instr} (hi : ∀ x, i ≠ .ldVxK x) (s : State) : ClearsW (exec i s) := by
  cases i with
  | ldVxK x => exact absurd rfl (hi x)
  | ret | call nnn =>
    simp only [exec, execRet, execCall]
    split
    · exact .complete _ _
    · exact .raise s (by decide)
  | skp x | sknp x =>
    simp only [exec, execSkp, execSknp]
    split
    · exact .skipIf s _
    · exact .raise s (by decide)
  | seVxNn x nn | sneVxNn x nn | seVxVy x y | sneVxVy x y => exact .skipIf s _
  | drw x y n | ldBVx x | ldIVx x | ldVxI x => exact .checked s _ _
  -- the remaining forms complete in every state
  | _ => exact .complete _ _

theorem exec_ldVxK_of_some {s : State} {k : Fin 16} (h : lowestKey s.key = some k) (x : Reg) :
    exec (.ldVxK x) s = .next (s.setReg x (keyByte k)).next := by
  simp only [exec, execLdVxK, h]

theorem exec_ldVxK_of_none {s : State} (h : lowestKey s.key = none) (x : Reg) : exec (.ldVxK x) s = .next s.await := by
  simp only [exec, execLdVxK, h]

/-- An instruction that latches no cause sets `W` exactly where it is an `LD Vx,K` that finds no key. -/
theorem w_of_exec {i : Instr} {s t : State} (ht : exec i s = .next t) (hlatch : t.fault = .noFault) :
    t.w = true ↔ (∃ x, i = .ldVxK x) ∧ lowestKey s.key = none := by
  by_cases hi : ∃ x, i = .ldVxK x
  · obtain ⟨x, rfl⟩ := hi
    cases hk : lowestKey s.key with
    | some k =>
      cases (exec_ldVxK_of_some hk x).symm.trans ht
      simp
    | none =>
      cases (exec_ldVxK_of_none hk x).symm.trans ht
      simp
  · have hw : t.w = false := exec_clearsW (not_exists.mp hi) s t ht hlatch
    simp [hw, hi]

/-- Settles O15, over the cases of a STEP: the fetch fault keeps `W`, the no-op of an unknown word clears it, and an
instruction is covered by its ending. -/
theorem awaitingFlagFollowsTheOutcome : Obligations.AwaitingFlagFollowsTheOutcome := by
  intro s t hf ht
  obtain ⟨hhalt, -⟩ | ⟨-, -, h⟩ | ⟨-, -, hnone, h⟩ | ⟨-, -, i, hi, h⟩ := step_cases ht
  · exact absurd hf hhalt
  · cases h
    exact ⟨fun _ => rfl, nofun⟩
  · cases h
    exact ⟨fun hne => absurd hf hne, fun _ => by simp [hnone]⟩
  · refine ⟨Ending.w_eq_of_fault (h ▸ exec_ending i s) hf, fun hlatch => ?_⟩
    rw [w_of_exec h.symm hlatch, lowestKey_eq_none_iff, hi]
    simp [State.keyDown]

end Sys2Proof.Machine

/-! ### Control flow (41_control_flow.md R120 to R129) -/

namespace Sys2Proof.Machine

/-! #### Targets (R122, R128, R129) -/

/-- A jump field as a `PC` is the field's own number: zero-extended, unchecked (R122, R129). -/
theorem setWidth_addr_toNat (nnn : Addr) : (nnn.setWidth 16).toNat = nnn.toNat :=
  BitVec.toNat_setWidth_of_le (by decide)

/-- The farthest target, 0xFFF + 0xFF, fits in 16 bits: the sum is the number `nnn + V0` (R128). -/
theorem setWidth_addr_add_byte_toNat (nnn : Addr) (b : Byte) :
    (nnn.setWidth 16 + b.setWidth 16).toNat = nnn.toNat + b.toNat := by
  bv_omega

/-! #### `CALL` and `RET` (R121, R123) -/

/-- The frame of `CALL` and `RET`: a completion on a new stack and stack pointer. -/
theorem OnlyStack.complete (s : State) (stack : Vector Word 16) (sp : Fin 17) (pc : Word) :
    OnlyStack s (State.complete { s with stack := stack, sp := sp } pc) :=
  ⟨fun _ _ => rfl, rfl, fun _ => rfl, ⟨rfl, rfl⟩, ⟨fun _ _ => rfl, rfl⟩, fun _ => rfl, rfl, rfl⟩

theorem exec_call_of_lt (nnn : Addr) {s : State} (h : s.sp.val < 16) :
    exec (.call nnn) s =
      .next (State.complete
        { s with stack := s.stack.set s.sp.val (s.pc + 2), sp := ⟨s.sp.val + 1, Nat.succ_lt_succ h⟩ }
        (nnn.setWidth 16)) := by
  simp only [exec, execCall, State.push?_of_lt s _ h]

theorem exec_call_of_full (nnn : Addr) {s : State} (h : ¬ s.sp.val < 16) :
    exec (.call nnn) s = raise .stackOverflow s := by
  simp only [exec, execCall, State.push?_of_full s _ h]

/-- Settles O32: the push writes the one slot at the old `SP`, and a full stack raises before any write. -/
theorem callPushes : Obligations.CallPushes := by
  refine fun nnn s => ⟨fun hroom => ⟨_, exec_call_of_lt nnn hroom, setWidth_addr_toNat nnn, rfl, fun k => ?_,
    .complete s _ _ _⟩, fun hfull => ?_⟩
  · simp only [State.slot, State.complete_stack, Fin.getElem_fin, Vector.getElem_set, eq_comm (a := s.sp.val)]
  · rw [exec_call_of_full nnn (by omega)]
    exact .raise _ s

theorem exec_ret_of_sp_eq {s : State} {k : Fin 16} (h : s.sp.val = k.val + 1) :
    exec .ret s = .next (State.complete { s with sp := k.castSucc } (s.slot k)) := by
  simp only [exec, execRet, State.pop?_of_pos s (by omega), h, Nat.add_sub_cancel]
  rfl

theorem exec_ret_of_empty {s : State} (h : s.sp.val = 0) : exec .ret s = raise .stackUnderflow s := by
  simp only [exec, execRet, State.pop?_of_empty s h]

/-- Settles O33: the pop moves `SP` alone, and an empty stack raises before any write. -/
theorem retPops : Obligations.RetPops := by
  refine fun s => ⟨fun k hk => ⟨_, exec_ret_of_sp_eq hk, rfl, rfl, fun _ => rfl, .complete s _ _ _⟩, fun hempty => ?_⟩
  rw [exec_ret_of_empty hempty]
  exact .raise _ s

/-- Settles O34: the slot `RET` reads is the slot at the `SP` from before the `CALL`, the one `CALL` wrote. -/
theorem retReturnsAfterTheCall : Obligations.RetReturnsAfterTheCall := by
  rintro nnn s t u hroom hcall ⟨husp, huslot⟩
  obtain ⟨t', ht', -, htsp, htslot, -⟩ := (callPushes nnn s).1 hroom
  cases hcall.symm.trans ht'
  obtain ⟨r, hr, hrpc, hrsp, -⟩ := (retPops u).1 ⟨s.sp.val, hroom⟩ (by rw [husp, htsp])
  refine ⟨r, hr, ?_, Fin.ext hrsp⟩
  rw [hrpc, huslot, htslot, if_pos rfl]

/-! #### Compares (R124 to R127) -/

theorem State.skipIf_beq_pc (s : State) (a b : Byte) :
    (s.skipIf (a == b)).pc = if a = b then s.pc + 4 else s.pc + 2 := by
  simp only [State.skipIf_pc, beq_iff_eq]

theorem State.skipIf_bne_pc (s : State) (a b : Byte) :
    (s.skipIf (a != b)).pc = if a = b then s.pc + 2 else s.pc + 4 := by
  simp only [State.skipIf_pc, bne_iff_ne, ne_eq, ite_not]

/-- Settles O30: each compare is a conditional skip, on equality or on its negation. -/
theorem comparesSkip : Obligations.ComparesSkip :=
  ⟨fun _ _ s => ⟨_, rfl, s.skipIf_beq_pc _ _, .skipIf s _⟩, fun _ _ s => ⟨_, rfl, s.skipIf_bne_pc _ _, .skipIf s _⟩,
    fun _ _ s => ⟨_, rfl, s.skipIf_beq_pc _ _, .skipIf s _⟩, fun _ _ s => ⟨_, rfl, s.skipIf_bne_pc _ _, .skipIf s _⟩⟩

/-! #### Jumps (R122, R128) -/

/-- A completion that leaves `PC` where it is changes at most `W`. -/
theorem State.complete_eq_of_pc {s : State} {pc : Word} (h : pc = s.pc) : s.complete pc = { s with w := false } := by
  subst h
  rfl

/-- Settles O31: both targets are exact, and the self-jump completes at its own `PC`. -/
theorem jumpsSetPC : Obligations.JumpsSetPC := by
  refine ⟨fun nnn s => ⟨_, rfl, setWidth_addr_toNat nnn, .complete s _, fun hself => ?_⟩,
    fun nnn s => ⟨_, rfl, setWidth_addr_add_byte_toNat nnn (s.reg 0), .complete s _⟩⟩
  exact State.complete_eq_of_pc (BitVec.eq_of_toNat_eq ((setWidth_addr_toNat nnn).trans hself))

end Sys2Proof.Machine

/-! ### Registers and arithmetic (42_alu.md R140 to R153) -/

namespace Sys2Proof.Machine

/-! #### What a flag-writing end leaves in its two registers (R140) -/

@[simp] theorem State.reg_setFlagged_same (s : State) (x : Reg) (flag : Bool) (result : Byte) :
    (s.setFlagged x flag result).reg x = result := by
  rw [State.reg_setFlagged, if_pos rfl]

theorem State.reg_setFlagged_VF (s : State) {x : Reg} (h : x ≠ VF) (flag : Bool) (result : Byte) :
    (s.setFlagged x flag result).reg VF = flagByte flag := by
  rw [State.reg_setFlagged, if_neg h.symm, if_pos rfl]

/-! #### The flags as conditions on the operands' numbers (R147 to R151) -/

theorem flagByte_carryOut (a b : Byte) : flagByte (carryOut a b) = if 255 < a.toNat + b.toNat then 1 else 0 := by
  simp only [flagByte_eq, carryOut, decide_eq_true_eq, gt_iff_lt]

theorem flagByte_greater (a b : Byte) : flagByte (greater a b) = if b.toNat < a.toNat then 1 else 0 := by
  simp only [flagByte_eq, greater, decide_eq_true_eq, gt_iff_lt]

theorem flagByte_toNat (f : Bool) : (flagByte f).toNat = f.toNat := by cases f <;> rfl

theorem flagByte_bitOutRight_toNat (a : Byte) : (flagByte (bitOutRight a)).toNat = a.toNat % 2 := by
  rw [flagByte_toNat, bitOutRight, BitVec.getLsbD, Nat.toNat_testBit, Nat.pow_zero, Nat.div_one]

/-- Bit 7 is the whole quotient by 128, since a byte is below 256. -/
theorem flagByte_bitOutLeft_toNat (a : Byte) : (flagByte (bitOutLeft a)).toNat = a.toNat / 128 := by
  rw [flagByte_toNat, bitOutLeft, BitVec.getLsbD, Nat.toNat_testBit]
  exact Nat.mod_eq_of_lt (Nat.div_lt_of_lt_mul a.isLt)

/-! #### The results as numbers (R148 to R152) -/

/-- The byte difference is the true one mod 256, a negative one included (R152). -/
theorem sub_toNat_cast (a b : Byte) : ((a - b).toNat : Int) = (a.toNat - b.toNat : Int) % 256 := by
  rw [BitVec.toNat_sub]
  omega

theorem shiftRight_one_toNat (a : Byte) : (a >>> 1).toNat = a.toNat / 2 := by
  rw [BitVec.toNat_ushiftRight, Nat.shiftRight_one]

theorem shiftLeft_one_toNat (a : Byte) : (a <<< 1).toNat = a.toNat * 2 % 256 := by
  rw [BitVec.toNat_shiftLeft, Nat.shiftLeft_eq]

/-! #### Forms without a flag (R141 to R146) -/

/-- Settles O36: the destination is read back as written, and the frame names no other register. -/
theorem loadsAndByteAdd : Obligations.LoadsAndByteAdd := by
  refine ⟨fun x nn s => ⟨_, rfl, s.reg_setReg_same x nn, rfl, .setReg_next s x _⟩,
    fun x nn s => ⟨_, rfl, ?_, rfl, .setReg_next s x _⟩,
    fun x y s => ⟨_, rfl, s.reg_setReg_same x (s.reg y), rfl, .setReg_next s x _⟩⟩
  rw [State.reg_next, State.reg_setReg_same, BitVec.toNat_add]

/-- Settles O37: the written byte is the bitwise operation on the old bytes. -/
theorem bitwiseForms : Obligations.BitwiseForms := by
  refine ⟨fun x y s => ⟨_, rfl, fun b _ => ?or, rfl, .setReg_next s x _⟩,
    fun x y s => ⟨_, rfl, fun b _ => ?and, rfl, .setReg_next s x _⟩,
    fun x y s => ⟨_, rfl, fun b _ => ?xor, rfl, .setReg_next s x _⟩⟩
  case or => rw [State.reg_next, State.reg_setReg_same, BitVec.getLsbD_or]
  case and => rw [State.reg_next, State.reg_setReg_same, BitVec.getLsbD_and]
  case xor => rw [State.reg_next, State.reg_setReg_same, BitVec.getLsbD_xor]

/-! #### Forms with a flag (R147 to R151) -/

/-- Settles O38: sum and carry are both of the old bytes, and the sum is written last. -/
theorem addCarries : Obligations.AddCarries := by
  refine fun x y s => ⟨_, rfl, ?sum, fun hx => ?carry, rfl, .setFlagged_next s x _ _⟩
  case sum => rw [State.reg_next, State.reg_setFlagged_same, BitVec.toNat_add]
  case carry => rw [State.reg_next, State.reg_setFlagged_VF s hx, flagByte_carryOut]

/-- The one subtraction of `SUB` and `SUBN`, of any minuend `a` and subtrahend `b` (R148, R150). -/
theorem writeFlagged_sub (x : Reg) (a b : Byte) (s : State) :
    ∃ t, writeFlagged x (greater a b) (a - b) s = .next t ∧
      ((t.reg x).toNat : Int) = (a.toNat - b.toNat : Int) % 256 ∧
      (x ≠ VF → t.reg VF = if b.toNat < a.toNat then 1 else 0) ∧ t.pc = s.pc + 2 ∧ OnlyRegs [x, VF] s t := by
  refine ⟨_, rfl, ?difference, fun hx => ?flag, rfl, .setFlagged_next s x _ _⟩
  case difference => rw [State.reg_next, State.reg_setFlagged_same, sub_toNat_cast]
  case flag => rw [State.reg_next, State.reg_setFlagged_VF s hx, flagByte_greater]

/-- Settles O39: `SUB` and `SUBN` are one subtraction with the operands exchanged. -/
theorem subtractsBothWays : Obligations.SubtractsBothWays :=
  ⟨fun x y s => writeFlagged_sub x (s.reg x) (s.reg y) s, fun x y s => writeFlagged_sub x (s.reg y) (s.reg x) s⟩

/-- Settles O40: the shift is a division or a product by two, and the bit pushed out is its remainder or its overflow. -/
theorem shiftsByOneInPlace : Obligations.ShiftsByOneInPlace := by
  refine ⟨fun x y s => ⟨_, rfl, ?half, fun hx => ?low, rfl, .setFlagged_next s x _ _⟩,
    fun x y s => ⟨_, rfl, ?double, fun hx => ?high, rfl, .setFlagged_next s x _ _⟩⟩
  case half => rw [State.reg_next, State.reg_setFlagged_same, shiftRight_one_toNat]
  case low => rw [State.reg_next, State.reg_setFlagged_VF s hx, flagByte_bitOutRight_toNat]
  case double => rw [State.reg_next, State.reg_setFlagged_same, shiftLeft_one_toNat]
  case high => rw [State.reg_next, State.reg_setFlagged_VF s hx, flagByte_bitOutLeft_toNat]

/-! #### The random byte (R153) -/

/-- Settles O41: whatever the random byte is, the mask keeps no bit outside itself; the frame is that of the register
write, over the state with one more byte taken. -/
theorem randomUnderTheMask : Obligations.RandomUnderTheMask := by
  intro x nn s
  obtain ⟨hregs, hi, hmem, hstack, htimers, hscreen, hkeys, hfault, -⟩ :=
    OnlyRegs.setReg_next s.countDraw x (Config.randomByte s.draws &&& nn)
  refine ⟨_, rfl, s.countDraw.reg_setReg_same x _, ?_, rfl, rfl, hregs, hi, hmem, hstack, htimers, hscreen, hkeys, hfault⟩
  rw [State.reg_next, State.reg_setReg_same, BitVec.and_assoc, BitVec.and_not_self]
  exact BitVec.and_zero

end Sys2Proof.Machine

/-! ### Index and memory (43_index_memory.md R170 to R176) -/

namespace Sys2Proof.Machine

/-! #### Index loads (R170 to R172) -/

/-- The sum of `I` and a register wraps at 16 bits (R171). -/
theorem add_setWidth_byte_toNat (a : Word) (b : Byte) : (a + b.setWidth 16).toNat = (a.toNat + b.toNat) % 65536 := by
  rw [BitVec.toNat_add, BitVec.toNat_setWidth_of_le (by decide)]

/-- Five times a byte is at most 1275: the glyph address of any byte is exact (R172). -/
theorem ofNat_byte_mul_five_toNat (b : Byte) : (BitVec.ofNat 16 (b.toNat * 5)).toNat = b.toNat * 5 :=
  Nat.mod_eq_of_lt (by omega)

/-- Settles O42: each form sets `I` once and completes; only the sum of `ADD I,Vx` can wrap. -/
theorem indexLoads : Obligations.IndexLoads :=
  ⟨fun nnn s => ⟨_, rfl, setWidth_addr_toNat nnn, rfl, .setI_next s _⟩,
    fun x s => ⟨_, rfl, add_setWidth_byte_toNat s.i (s.reg x), rfl, .setI_next s _⟩,
    fun x s => ⟨_, rfl, ofNat_byte_mul_five_toNat (s.reg x), rfl, .setI_next s _⟩⟩

/-! #### Accesses past the end of memory (R174) -/

/-- An access of the elements at `I` to `I + k` that runs past 0xFFF is a precise fault, whatever it would have done. -/
theorem FaultsWith.of_access_beyond {s u : State} {k : Nat} (h : 0xFFF < s.i.toNat + k) :
    FaultsWith .memOutOfBounds s (if accessFits s (k + 1) then .next u else Machine.raise .memOutOfBounds s) := by
  have hout : ¬ accessFits s (k + 1) = true := by
    rw [accessFits_iff, Nat.add_sub_cancel]
    omega
  rw [if_neg hout]
  exact .raise _ s

/-! #### Stores (R173, R175) -/

/-- The byte `LD [I],Vx` leaves at element `k` of its range is `V[k]` (R175). -/
theorem registerStoreByte_base_add {x k : Reg} (s : State) (h : k ≤ x) :
    registerStoreByte x s (base s + k.val) = s.reg k := by
  rw [registerStoreByte, dif_pos ⟨Nat.le_add_right _ _, Nat.add_le_add_left h _⟩]
  simp only [Nat.add_sub_cancel_left]

/-- A decimal digit fits in a byte, so that the stored byte is the digit's own number (R173). -/
theorem bcdDigit_toNat {d : Nat} (h : d < 10) : (BitVec.ofNat 8 d).toNat = d :=
  Nat.mod_eq_of_lt (by omega)

/-- Settles O43: the three bytes are those of `decimalStoreByte`, each a digit below 10. -/
theorem decimalStore : Obligations.DecimalStore := by
  intro x s
  refine ⟨fun hfit => ⟨_, exec_ldBVx_of_fits hfit, ?hundreds, ?tens, ?ones, rfl, .storeElements_next s _⟩,
    .of_access_beyond⟩
  all_goals rw [State.next_mem, read_storeElements_bcdDigits, decimalStoreByte]
  case hundreds =>
    rw [if_pos rfl]
    exact bcdDigit_toNat (by omega)
  case tens =>
    rw [if_neg (by omega), if_pos rfl]
    exact bcdDigit_toNat (by omega)
  case ones =>
    rw [if_neg (by omega), if_neg (by omega), if_pos rfl]
    exact bcdDigit_toNat (by omega)

/-- Settles O44: the bytes are those of `registerStoreByte`, and the frame leaves out the `x + 1` addresses written. -/
theorem registerStore : Obligations.RegisterStore := by
  refine fun x s => ⟨fun hfit => ⟨_, exec_ldIVx_of_fits hfit, fun k hk => ?_, rfl, ?_⟩, .of_access_beyond⟩
  · rw [State.next_mem, read_storeElements_regsUpTo, registerStoreByte_base_add s hk]
  · rw [← regsUpTo_length s x]
    exact .storeElements_next s _

/-! #### Loads (R176) -/

theorem exec_ldVxI_of_fits {x : Reg} {s : State} (h : s.i.toNat + x.val ≤ 0xFFF) :
    exec (.ldVxI x) s = .next (s.setV (regsLoaded s x)).next :=
  if_pos ((accessFits_iff s (x.val + 1)).mpr (.inr h))

/-- The registers after `LD Vx,[I]`: `V0` to `V[x]` from memory, those above as they were. -/
theorem State.reg_setV_regsLoaded (s : State) (x k : Reg) :
    (s.setV (regsLoaded s x)).reg k = if k ≤ x then s.mem.read (base s + k.val) else s.reg k :=
  regsLoaded_getElem s x k

/-- The destinations of `LD Vx,[I]` are the registers up to `V[x]` (R176). -/
theorem mem_namedDestinations_ldVxI (x k : Reg) : k ∈ namedDestinations (.ldVxI x) ↔ k ≤ x := by
  simp [namedDestinations]

/-- Settles O45: the new register file is the old one above `V[x]`, which is the frame. -/
theorem registerLoad : Obligations.RegisterLoad := by
  intro x s
  have hreg := s.reg_setV_regsLoaded x
  refine ⟨fun hfit => ⟨_, exec_ldVxI_of_fits hfit, fun k hk => ?_, fun k hk => ?_, rfl, .setV_next s _ _ fun k hk => ?_⟩,
    .of_access_beyond⟩
  · rw [State.reg_next, hreg, if_pos hk]
  · rw [State.reg_next, hreg, if_neg (not_le_of_gt hk)]
  · rw [mem_namedDestinations_ldVxI] at hk
    exact (hreg k).trans (if_neg hk)

/-! #### A store and a load at the same `I` (R59, R175, R176) -/

/-- Settles O46: the load reads, at the same `I`, the bytes the store has left. -/
theorem storedRegistersLoadBack : Obligations.StoredRegistersLoadBack := by
  intro x s t u hfit hstore hmem hi
  obtain ⟨t', ht', hstored, -⟩ := (registerStore x s).1 hfit
  cases hstore.symm.trans ht'
  obtain ⟨r, hr, hloaded, -⟩ := (registerLoad x u).1 (hi ▸ hfit)
  have hbase : base u = base s := congrArg BitVec.toNat hi
  refine ⟨r, hr, fun k hk => ?_⟩
  calc r.reg k = u.mem.read (base u + k.val) := hloaded k hk
    _ = t.mem.read (base s + k.val) := by rw [hbase, hmem]
    _ = s.reg k := hstored k hk

end Sys2Proof.Machine

/-! ### Display (44_display.md R190 to R192) -/

namespace Sys2Proof.Machine

/-- Settles O49: the painted screen is blank whatever the old one was, and the frame of a painting is the claim's. -/
theorem clsClears : Obligations.ClsClears :=
  fun s => ⟨_, rfl, pixel_blankScreen, rfl, rfl, .paint_next s _⟩

/-! #### What `DRW` draws (R191) -/

/-- The framebuffer and the collision flag `DRW Vx,Vy,n` ends with, where its sprite is inside memory. -/
def drawnPlot (x y : Reg) (n : Nibble) (s : State) : Plot :=
  plotRows ((s.reg x).toNat % 64) ((s.reg y).toNat % 32) (loadElements s n.toNat) (s.fb, false)

theorem exec_drw (x y : Reg) (n : Nibble) (s : State) :
    exec (.drw x y n) s =
      if accessFits s n.toNat then
        .next ((s.setReg VF (flagByte (drawnPlot x y n s).2)).paint (drawnPlot x y n s).1).next
      else raise .memOutOfBounds s := rfl

/-- A sprite has at most 15 rows, so that its rows never come round to the first again (R191 (e)). -/
theorem loadElements_nibble_length_le (s : State) (n : Nibble) : (loadElements s n.toNat).length ≤ 32 := by
  rw [loadElements_length]
  omega

theorem drawnPlot_pixel (x y : Reg) (n : Nibble) (s : State) (py : Fin 32) (px : Fin 64) :
    (drawnPlot x y n s).1[py][px] = (s.pixel py px ^^ spriteLights s x y n.toNat py px) := by
  rw [drawnPlot, plotRows_pixel _ _ _ _ (loadElements_nibble_length_le s n), spriteBit_loadElements, State.pixel]

theorem drawnPlot_hit (x y : Reg) (n : Nibble) (s : State) :
    (drawnPlot x y n s).2 = true ↔
      ∃ py px, spriteLights s x y n.toNat py px = true ∧ s.pixel py px = true := by
  rw [drawnPlot, plotRows_hit _ _ _ _ (loadElements_nibble_length_le s n)]
  simp only [Bool.false_eq_true, false_or, spriteBit_loadElements, State.pixel]

/-- Settles O50: inside memory the drawn plot says every pixel and the collision, and past its end nothing is drawn. -/
theorem drwPlots : Obligations.DrwPlots := by
  refine fun x y n s => ⟨fun hfit => ⟨_, (exec_drw x y n s).trans (if_pos ((accessFits_iff s _).mpr hfit)),
    drawnPlot_pixel x y n s, fun hhit => ?hit, fun hmiss => ?miss, rfl, rfl, .setReg_paint_next s VF _ _⟩,
    fun ⟨hpos, hout⟩ => ?beyond⟩
  case hit =>
    rw [State.reg_next, State.reg_paint, State.reg_setReg_same, (drawnPlot_hit x y n s).mpr hhit]
    rfl
  case miss =>
    have hnot : ¬ (drawnPlot x y n s).2 = true := by
      rw [drawnPlot_hit]
      rintro ⟨py, px, hlit, hon⟩
      exact absurd hon (by simp [hmiss py px hlit])
    rw [State.reg_next, State.reg_paint, State.reg_setReg_same, flagByte_eq, if_neg hnot]
  case beyond =>
    have hcount : n.toNat = n.toNat - 1 + 1 := by omega
    rw [exec_drw, hcount]
    exact .of_access_beyond hout

/-! #### Drawing twice (R192) -/

/-- What a sprite lights depends only on memory, on `I` and on the two registers of its origin: a drawing that leaves those
alone would light the same pixels again. -/
theorem spriteLights_of_onlyScreen {s t : State} {x y : Reg} (h : OnlyScreen [VF] s t) (hx : x ≠ VF) (hy : y ≠ VF)
    (n : Nat) (py : Fin 32) (px : Fin 64) : spriteLights t x y n py px = spriteLights s x y n py px := by
  obtain ⟨hregs, hi, hmem, -⟩ := h
  simp only [spriteLights, hregs x (by simpa using hx), hregs y (by simpa using hy), hi, hmem _]

/-- Settles O51: the second drawing flips the same pixels back, and collides where the first has set a pixel. -/
theorem drwTwiceRestores : Obligations.DrwTwiceRestores := by
  intro x y n s t u hx hy hfit hfirst hsecond
  obtain ⟨t', ht', htpixel, -, -, -, -, hframe⟩ := (drwPlots x y n s).1 hfit
  cases hfirst.symm.trans ht'
  have hsame := spriteLights_of_onlyScreen hframe hx hy n.toNat
  obtain ⟨-, hi, -⟩ := hframe
  obtain ⟨u', hu', hupixel, hhit, hmiss, -⟩ := (drwPlots x y n t).1 (hi ▸ hfit)
  cases hsecond.symm.trans hu'
  simp only [hsame] at hupixel hhit hmiss
  have hflip {py px} (hlit : spriteLights s x y n.toNat py px = true) : t.pixel py px = !s.pixel py px := by
    rw [htpixel, hlit, Bool.xor_true]
  refine ⟨fun py px => ?restored, fun hone => ?collided, fun ⟨py, px, hlit, hoff⟩ => ?collides⟩
  case restored => rw [hupixel, htpixel, Bool.xor_assoc, Bool.xor_self, Bool.xor_false]
  case collided =>
    by_contra hnone
    have hzero : u.reg VF = 0 := hmiss fun py px hlit => by
      have hon : s.pixel py px = true := by
        by_contra hoff
        exact hnone ⟨py, px, hlit, eq_false_of_ne_true hoff⟩
      rw [hflip hlit, hon, Bool.not_true]
    exact absurd (hzero.symm.trans hone) (by decide)
  case collides => exact hhit ⟨py, px, hlit, by rw [hflip hlit, hoff, Bool.not_false]⟩

end Sys2Proof.Machine

/-! ### Keys and timers (45_keypad_timers.md R210 to R215) -/

namespace Sys2Proof.Machine

/-! #### `LD Vx,K` and its wait (R212) -/

theorem lowestKey_of_no_keyDown {s : State} (h : ∀ k : Fin 16, s.keyDown k = false) : lowestKey s.key = none :=
  (lowestKey_eq_none_iff s.key).mpr h

theorem lowestKey_of_first_keyDown {s : State} {k : Fin 16} (hk : s.keyDown k = true)
    (hlow : ∀ j : Fin 16, j < k → s.keyDown j = false) : lowestKey s.key = some k :=
  (lowestKey_eq_some_iff s.key k).mpr ⟨hk, hlow⟩

theorem step_of_instrAtPC {s : State} {i : Instr} (hf : s.fault = .noFault) (hi : instrAtPC s = some i) :
    step s = exec i s := by
  obtain ⟨op, hop, hdec⟩ := (instrAtPC_eq_some_iff s i).mp hi
  rw [step_of_fetch_some hf hop, execWord_of_some s hdec]

/-- A STEP at an `LD Vx,K` that finds no key waits (R212 (a)). -/
theorem step_waits {s : State} {x : Reg} (hf : s.fault = .noFault) (hi : instrAtPC s = some (.ldVxK x))
    (hkeys : ∀ k : Fin 16, s.keyDown k = false) : step s = .next s.await :=
  (step_of_instrAtPC hf hi).trans (exec_ldVxK_of_none (lowestKey_of_no_keyDown hkeys) x)

theorem stepReport_of_waiting {s t : State} (hs : s.fault = .noFault) (ht : t.fault = .noFault) (hw : t.w = true) :
    stepReport s t = .waiting := by
  simp only [stepReport, (State.halted_eq_false_iff s).mpr hs, (State.halted_eq_false_iff t).mpr ht, hw,
    Bool.false_eq_true, if_false, if_true]

section run

variable {M : Host.Core} {s t : M.State}

theorem run_succ_of_step (h : M.step s = .next t) (n : Nat) : M.run (n + 1) s = M.run n t := by
  rw [Host.Core.run, h]

/-- A state that a STEP leaves as it is, any number of STEPs leaves as it is. -/
theorem run_of_step_self (h : M.step s = .next s) (n : Nat) : M.run n s = .next s := by
  induction n with
  | zero => rfl
  | succ n ih => rw [run_succ_of_step h, ih]

end run

/-- Settles O54: the first STEP sets `W`, and the waiting state it answers is one that a further STEP leaves as it is,
since `PC`, memory and the keys are those of before. -/
theorem waitingLasts : Obligations.WaitingLasts := by
  refine fun x s hf hi hkeys => ⟨fun n => ?_, stepReport_of_waiting hf hf rfl⟩
  have hfirst : step s = .next s.await := step_waits hf hi hkeys
  have hagain : step s.await = .next s.await :=
    step_waits (s := s.await) hf ((instrAtPC_congr s.await_pc s.await_mem).trans hi) hkeys
  exact (run_succ_of_step (M := Sys2Proof.core) hfirst n).trans (run_of_step_self (M := Sys2Proof.core) hagain n)

/-- Settles O53: with a key pressed it is a register write that completes, with none it is the wait. -/
theorem keyWait : Obligations.KeyWait := by
  refine fun x s => ⟨fun k hk hlow => ?_, fun hkeys => exec_ldVxK_of_none (lowestKey_of_no_keyDown hkeys) x⟩
  refine ⟨_, exec_ldVxK_of_some (lowestKey_of_first_keyDown hk hlow) x, ?_, rfl, rfl, .setReg_next s x _⟩
  rw [State.reg_next, State.reg_setReg_same, keyByte_toNat]

/-! #### `SKP` and `SKNP` (R210, R211) -/

section skips

variable {s : State} {x : Reg} {k : Fin 16}

theorem exec_skp_of_key (h : (s.reg x).toNat = k.val) : exec (.skp x) s = .next (s.skipIf (s.keyDown k)) := by
  simp only [exec, execSkp, (keyIndex_eq_some_iff (s.reg x) k).mpr h]

theorem exec_sknp_of_key (h : (s.reg x).toNat = k.val) : exec (.sknp x) s = .next (s.skipIf (!s.keyDown k)) := by
  simp only [exec, execSknp, (keyIndex_eq_some_iff (s.reg x) k).mpr h]

theorem exec_skp_of_gt (h : 15 < (s.reg x).toNat) : exec (.skp x) s = raise .keyIndexOutOfRange s := by
  simp only [exec, execSkp, (keyIndex_eq_none_iff (s.reg x)).mpr h]

theorem exec_sknp_of_gt (h : 15 < (s.reg x).toNat) : exec (.sknp x) s = raise .keyIndexOutOfRange s := by
  simp only [exec, execSknp, (keyIndex_eq_none_iff (s.reg x)).mpr h]

end skips

theorem State.skipIf_not_pc (s : State) (c : Bool) :
    (s.skipIf (!c)).pc = if c = true then s.pc + 2 else s.pc + 4 := by
  simp only [State.skipIf_pc, Bool.not_eq_true', ← Bool.not_eq_true, ite_not]

/-- Settles O52: both are conditional skips on the one key the value names, and a value that names none raises. -/
theorem keySkips : Obligations.KeySkips := by
  refine fun x s => ⟨fun k hk => ⟨⟨_, exec_skp_of_key hk, s.skipIf_pc _, .skipIf s _⟩,
    ⟨_, exec_sknp_of_key hk, s.skipIf_not_pc _, .skipIf s _⟩⟩, fun hout => ?_⟩
  rw [exec_skp_of_gt hout, exec_sknp_of_gt hout]
  exact ⟨.raise _ s, .raise _ s⟩

/-! #### The timer moves (R213 to R215) -/

/-- Settles O55: each move writes its one register or timer and completes. -/
theorem timerMoves : Obligations.TimerMoves :=
  ⟨fun x s => ⟨_, rfl, s.reg_setReg_same x s.dt, rfl, .setReg_next s x _⟩,
    fun _ s => ⟨_, rfl, rfl, rfl, rfl, .setDT_next s _⟩, fun _ s => ⟨_, rfl, rfl, rfl, rfl, .setST_next s _⟩⟩

end Sys2Proof.Machine

/-! ### Faults and the host's transactions (60_exceptions.md R231 to R253) -/

namespace Sys2Proof.Machine

/-! #### Every interleaving keeps the invariant (R246, R247) -/

/-- The invariant reads neither a timer nor `DIRTY` nor a key: what TICK, KEYS and DRAW_ACK write. -/
theorem Inv.withHost {s : State} (h : Inv s) (dt st : Byte) (dirty : Bool) (key : Vector Bool 16) :
    Inv { s with dt := dt, st := st, dirty := dirty, key := key } := by
  obtain ⟨hmem, hpc, hslot, hw⟩ := h
  exact ⟨hmem, hpc, hslot, hw⟩

theorem Inv.transactLoaded {s : State} (h : Inv s) (a : Transaction) : Inv (transactLoaded a s).1 := by
  cases a with
  | resetLoad rom => exact resetMeetsInv.2 s.draws rom
  | step =>
    obtain ⟨t, ht⟩ := step_exists_next s
    simp only [Machine.transactLoaded, stepTransaction_of_next ht]
    exact stepKeepsInv s t h ht
  | tick => exact h.withHost _ _ s.dirty s.key
  | keys bits => exact h.withHost s.dt s.st s.dirty _
  | drawAck => exact h.withHost s.dt s.st false s.key

/-- The induction over a sequence of transactions: what every RESET_LOAD leaves and every transaction keeps holds of the
engine at the end, where it held of the engine at the start, if that was loaded. -/
theorem runTransactions_keeps {P : State → Prop} (hload : ∀ draws rom, P (resetLoad draws rom))
    (hkeep : ∀ a s, P s → P (transactLoaded a s).1) (as : List Transaction) (m : Option State) (hm : ∀ s ∈ m, P s) :
    ∀ s ∈ runTransactions as m, P s := by
  induction as generalizing m with
  | nil => exact hm
  | cons a as ih =>
    refine ih _ ?_
    cases m with
    | some s =>
      rintro _ ⟨⟩
      exact hkeep a s (hm s rfl)
    | none =>
      cases a with
      | resetLoad rom =>
        rintro _ ⟨⟩
        exact hload 0 rom
      | step | tick | keys bits | drawAck => exact nofun

/-- Settles O18: RESET_LOAD leaves a state that meets the invariant and each transaction keeps it, so the induction over
the sequence applies from an engine never loaded. -/
theorem transactionsKeepInv : Obligations.TransactionsKeepInv :=
  ⟨fun a _ h => h.transactLoaded a,
    fun as s hs => runTransactions_keeps resetMeetsInv.2 (fun a _ h => h.transactLoaded a) as none nofun s hs⟩

/-! #### A fault is precise (R233) -/

/-- A STEP of a running engine ends as an instruction does: the fetch fault is a fault, the no-op a completion. -/
theorem step_ending {s : State} (hf : s.fault = .noFault) : Ending s (step s) := by
  obtain ⟨hhalt, -⟩ | ⟨-, -, h⟩ | ⟨-, -, -, h⟩ | ⟨-, -, i, -, h⟩ := step_cases (s := s) rfl
  · exact absurd hf hhalt
  · exact h ▸ .faults _ (by decide)
  · exact h ▸ .completes s _ rfl
  · exact h ▸ exec_ending i s

/-- Of the three endings only the fault latches a cause, and it changes nothing else. -/
theorem Ending.eq_of_fault {s t : State} (h : Ending s (.next t)) (hs : s.fault = .noFault) (ht : t.fault ≠ .noFault) :
    t = { s with fault := t.fault } := by
  cases h with
  | completes u pc hfault => exact absurd (hfault.trans hs) ht
  | waits => exact absurd hs ht
  | faults c _ => rfl

theorem stepReport_of_faulted {s t : State} (hs : s.fault = .noFault) (ht : t.fault ≠ .noFault) :
    stepReport s t = .faulted t.fault := by
  simp only [stepReport, (State.halted_eq_false_iff s).mpr hs, (State.halted_eq_true_iff t).mpr ht, Bool.false_eq_true,
    if_false, if_true]

/-- Settles O13, by the ending of the STEP. -/
theorem faultsArePrecise : Obligations.FaultsArePrecise := by
  intro s t hf ht hlatch
  have hend : Ending s (.next t) := ht ▸ step_ending hf
  exact ⟨hend.eq_of_fault hf hlatch, stepReport_of_faulted hf hlatch⟩

/-! #### The conditions of each cause (R231) -/

/-- The cause an instruction latches on a state of a running engine, `noFault` where it does not fault (R231). -/
def raisedCause (s : State) : Instr → Cause
  | .call _ => if s.sp.val = 16 then .stackOverflow else .noFault
  | .ret => if s.sp.val = 0 then .stackUnderflow else .noFault
  | .ldBVx _ => if accessFits s 3 then .noFault else .memOutOfBounds
  | .ldIVx x | .ldVxI x => if accessFits s (x.val + 1) then .noFault else .memOutOfBounds
  | .drw _ _ n => if accessFits s n.toNat then .noFault else .memOutOfBounds
  | .skp x | .sknp x => if 15 < (s.reg x).toNat then .keyIndexOutOfRange else .noFault
  | _ => .noFault

/-- The answer is a next state with the cause in its latch. -/
def Latches (c : Cause) (r : Result) : Prop := ∃ t, r = .next t ∧ t.fault = c

theorem Latches.raise (c : Cause) (s : State) : Latches c (raise c s) := ⟨_, rfl, rfl⟩

theorem Latches.skipIf {s : State} (hs : s.fault = .noFault) (c : Bool) : Latches .noFault (.next (s.skipIf c)) :=
  ⟨_, rfl, (s.skipIf_fault c).trans hs⟩

theorem Latches.checked {s u : State} (hs : s.fault = .noFault) (count : Nat) (hu : u.fault = s.fault) :
    Latches (if accessFits s count then .noFault else .memOutOfBounds)
      (if accessFits s count then .next u else Machine.raise .memOutOfBounds s) := by
  split
  · exact ⟨u, rfl, hu.trans hs⟩
  · exact .raise _ s

/-- Each form raises the cause of its row of R231 under that row's condition, and else leaves the latch clear. -/
theorem exec_latches {s : State} (hs : s.fault = .noFault) (i : Instr) : Latches (raisedCause s i) (exec i s) := by
  cases i with
  | call nnn =>
    by_cases hfull : s.sp.val = 16
    · rw [exec_call_of_full nnn (by omega), raisedCause, if_pos hfull]
      exact .raise _ s
    · rw [exec_call_of_lt nnn (by omega), raisedCause, if_neg hfull]
      exact ⟨_, rfl, hs⟩
  | ret =>
    by_cases hempty : s.sp.val = 0
    · rw [exec_ret_of_empty hempty, raisedCause, if_pos hempty]
      exact .raise _ s
    · have hsp : s.sp.val = (⟨s.sp.val - 1, by omega⟩ : Fin 16).val + 1 := (Nat.succ_pred hempty).symm
      rw [exec_ret_of_sp_eq hsp, raisedCause, if_neg hempty]
      exact ⟨_, rfl, hs⟩
  | skp x | sknp x =>
    simp only [raisedCause, exec, execSkp, execSknp, ← keyIndex_eq_none_iff]
    cases keyIndex (s.reg x) with
    | some k => exact if_neg (Option.some_ne_none k) ▸ .skipIf hs _
    | none => exact if_pos rfl ▸ .raise _ s
  | ldVxK x =>
    cases hk : lowestKey s.key with
    | some k => exact exec_ldVxK_of_some hk x ▸ ⟨_, rfl, hs⟩
    | none => exact exec_ldVxK_of_none hk x ▸ ⟨_, rfl, hs⟩
  | seVxNn x nn | sneVxNn x nn | seVxVy x y | sneVxVy x y => exact .skipIf hs _
  | ldBVx x => exact .checked hs 3 rfl
  | ldIVx x | ldVxI x => exact .checked hs (x.val + 1) rfl
  | drw x y n => exact .checked hs n.toNat rfl
  -- the remaining forms complete in every state
  | _ => exact ⟨_, rfl, hs⟩

theorem accessFits_eq_false_iff (s : State) (count : Nat) :
    accessFits s count = false ↔ 0 < count ∧ 0xFFF < s.i.toNat + (count - 1) := by
  rw [← Bool.not_eq_true, accessFits_iff]
  omega

/-! Read back from `raisedCause`, form by form: which forms raise a cause, and when. -/

section causes

variable (s : State) (i : Instr)

theorem raisedCause_eq_stackOverflow_iff :
    raisedCause s i = .stackOverflow ↔ ∃ nnn, i = .call nnn ∧ s.sp.val = 16 := by
  cases i <;> simp [raisedCause, ite_eq_iff]

theorem raisedCause_eq_stackUnderflow_iff : raisedCause s i = .stackUnderflow ↔ i = .ret ∧ s.sp.val = 0 := by
  cases i <;> simp [raisedCause, ite_eq_iff]

theorem raisedCause_eq_memOutOfBounds_iff : raisedCause s i = .memOutOfBounds ↔
    (∃ x, i = .ldBVx x ∧ 0xFFF < s.i.toNat + 2) ∨ (∃ x, i = .ldIVx x ∧ 0xFFF < s.i.toNat + x.val) ∨
    (∃ x, i = .ldVxI x ∧ 0xFFF < s.i.toNat + x.val) ∨
    (∃ x y n, i = .drw x y n ∧ 0 < n.toNat ∧ 0xFFF < s.i.toNat + (n.toNat - 1)) := by
  cases i <;> simp [raisedCause, ite_eq_iff, accessFits_eq_false_iff]

theorem raisedCause_eq_keyIndexOutOfRange_iff : raisedCause s i = .keyIndexOutOfRange ↔
    ∃ x, (i = .skp x ∨ i = .sknp x) ∧ 15 < (s.reg x).toNat := by
  cases i <;> simp [raisedCause, ite_eq_iff]

/-- The fetch's cause is no instruction's, and no more is RESET_LOAD's. -/
theorem raisedCause_ne_fetchOutOfBounds : raisedCause s i ≠ .fetchOutOfBounds := by
  cases i <;> simp [raisedCause, ite_eq_iff]

theorem raisedCause_ne_romTooLarge : raisedCause s i ≠ .romTooLarge := by
  cases i <;> simp [raisedCause, ite_eq_iff]

end causes

theorem instrAtPC_of_gt {s : State} (h : 4094 < s.pc.toNat) : instrAtPC s = none := by
  rw [instrAtPC, fetchWord_of_gt s h, Option.bind_none]

/-- Settles O14, over the cases of a STEP: with no instruction at `PC` the only cause is that of the fetch, and an
instruction's cause is its `raisedCause`. -/
theorem faultCausesAreExactly : Obligations.FaultCausesAreExactly := by
  refine ⟨fun s t hf ht => ?_, by decide⟩
  obtain ⟨hhalt, -⟩ | ⟨-, hgt, h⟩ | ⟨-, hle, hnone, h⟩ | ⟨-, hle, i, hi, h⟩ := step_cases ht
  · exact absurd hf hhalt
  · cases h
    simp [instrAtPC_of_gt hgt, hgt]
  · cases h
    simp [hnone, hf, hle]
  · obtain ⟨t', ht', hcause⟩ := exec_latches hf i
    cases h.trans ht'
    simp only [hcause, hi, Option.some.injEq]
    exact ⟨iff_of_false (raisedCause_ne_fetchOutOfBounds s i) (Nat.not_lt_of_le hle),
      raisedCause_eq_stackOverflow_iff s i, raisedCause_eq_stackUnderflow_iff s i, raisedCause_eq_memOutOfBounds_iff s i,
      raisedCause_eq_keyIndexOutOfRange_iff s i, raisedCause_ne_romTooLarge s i⟩

/-! #### TICK (R244) -/

theorem countDown_toNat (b : Byte) : (countDown b).toNat = b.toNat - 1 := by
  unfold countDown
  split
  · bv_omega
  · omega

theorem countDown_iterate_toNat (k : Nat) (b : Byte) : (countDown^[k] b).toNat = b.toNat - k := by
  induction k with
  | zero => rfl
  | succ k ih => rw [Function.iterate_succ_apply', countDown_toNat, ih, Nat.sub_sub]

/-- TICKs count both timers down, independently, and touch nothing else. -/
theorem tick_iterate (k : Nat) (s : State) :
    tick^[k] s = { s with dt := countDown^[k] s.dt, st := countDown^[k] s.st } := by
  induction k with
  | zero => rfl
  | succ k ih => simp only [Function.iterate_succ_apply', ih, tick]

/-- Settles O22, by what the iterated countdown of one timer leaves. -/
theorem ticksCountDown : Obligations.TicksCountDown := by
  intro s k
  rw [tick_iterate]
  exact ⟨countDown_iterate_toNat k s.dt, countDown_iterate_toNat k s.st, rfl⟩

/-! #### The other transactions (R234, R247, R248, R253) -/

/-- Settles O23: each is one update of its own field. -/
theorem keysAndDrawAckWriteTheirOwn : Obligations.KeysAndDrawAckWriteTheirOwn :=
  fun _ _ => ⟨fun k => Vector.getElem_ofFn k.isLt, rfl, rfl⟩

theorem transactLoaded_step_of_halted {s : State} (h : s.fault ≠ .noFault) :
    transactLoaded .step s = (s, .stepped .halted) := by
  rw [transactLoaded, stepTransaction_of_next (step_of_halted h), stepReport_of_halted h]

/-- Settles O25: a halted STEP keeps the whole state, and TICK, KEYS and DRAW_ACK do not read the latch. -/
theorem onlyResetLoadClearsTheLatch : Obligations.OnlyResetLoadClearsTheLatch := by
  refine fun a s hf => ⟨fun ha => ?_, transactLoaded_step_of_halted hf, rfl, rfl, fun _ => rfl⟩
  cases a with
  | resetLoad rom => exact absurd rfl (ha rom)
  | step => rw [transactLoaded_step_of_halted hf]
  | tick | keys bits | drawAck => rfl

theorem unknownEvent_of_instrAtPC {s : State} {i : Instr} (h : instrAtPC s = some i) : unknownEvent s = none := by
  obtain ⟨op, hop, hdec⟩ := (instrAtPC_eq_some_iff s i).mp h
  simp only [unknownEvent, hop, hdec, Option.isNone_some, Bool.false_eq_true, if_false]

/-- Settles O57: the STEP by the state `step` answers, its report by `W` in that state, the rest by definition. -/
theorem transactionsActInEveryCondition : Obligations.TransactionsActInEveryCondition := by
  intro s
  obtain ⟨t, ht⟩ := step_exists_next s
  refine ⟨⟨t, ht, by rw [transact, transactLoaded, stepTransaction_of_next ht], fun hf ⟨i, hi⟩ hlatch => ?_⟩, rfl,
    fun _ => rfl, rfl⟩
  by_cases hw : t.w = true
  · rw [stepReport_of_waiting hf hlatch hw, if_pos hw]
  · rw [stepReport_of_completed hf hlatch (Bool.eq_false_iff.mpr hw), if_neg hw, unknownEvent_of_instrAtPC hi]

end Sys2Proof.Machine

/-! ### RESET_LOAD in any condition, and the end of a run (70_reset_and_hazards.md R270, R272, R284) -/

namespace Sys2Proof.Machine

/-! #### RESET_LOAD in any condition (R270, R272) -/

/-- The one place where RESET_LOAD meets the engine's condition: of the state before it, only the model's own count goes
into the result, and nothing into the report. -/
theorem transact_resetLoad (rom : List Byte) (m : Option State) :
    transact (.resetLoad rom) m =
      (some (resetLoad (drawsOf m) rom), if rom.length ≤ Config.romMax then .ok else .romTooLarge) := by
  cases m with
  | none => rfl
  | some s => rfl

/-- Apart from the count, RESET_LOAD gives one state for each ROM (log 2). -/
theorem resetLoad_clear_draws (draws : Nat) (rom : List Byte) :
    { resetLoad draws rom with draws := 0 } = resetLoad 0 rom := by
  obtain hlen | hlen := Nat.lt_or_ge 3584 rom.length
  · simp only [resetLoad_of_gt _ hlen, rejectedState]
  · simp only [resetLoad_of_le _ hlen, loadedState]

/-- Settles O21: with the count cleared, the state and the report are functions of the ROM alone. -/
theorem resetLoadForgets : Obligations.ResetLoadForgets := by
  intro m rom
  simp only [transact_resetLoad, Option.map_some, resetLoad_clear_draws]
  exact ⟨trivial, fun hlen => if_pos hlen, fun hlen => if_neg (Nat.not_le_of_gt hlen), fun _ => ⟨trivial, trivial⟩⟩

/-! #### The jump to itself (R122, R284) -/

/-- A jump to the `PC` it stands at clears `W` and changes nothing else. -/
theorem exec_jp_self {nnn : Addr} {s : State} (h : nnn.toNat = s.pc.toNat) :
    exec (.jp nnn) s = .next { s with w := false } :=
  congrArg Host.Outcome.next (State.complete_eq_of_pc (BitVec.eq_of_toNat_eq ((setWidth_addr_toNat nnn).trans h)))

/-- What makes the end of a run does not read `W`. -/
theorem EndsWell.clear_w {s : State} (h : EndsWell s) : EndsWell { s with w := false } := by
  obtain ⟨hf, nnn, hi, hself⟩ := h
  exact ⟨hf, nnn, (instrAtPC_congr rfl rfl).trans hi, hself⟩

/-- Settles O35: the STEP runs the self-jump, which leaves the latch, `PC` and memory as they were. -/
theorem selfJumpIsTheEnd : Obligations.SelfJumpIsTheEnd := by
  intro s hend
  have hstay := hend.clear_w
  obtain ⟨hf, nnn, hi, hself⟩ := hend
  exact ⟨_, (step_of_instrAtPC hf hi).trans (exec_jp_self hself), rfl, hstay⟩

end Sys2Proof.Machine
